-- ==== Sys2Proof/Word.lean ====
section
/-! DEFINITION. The widths the spec fixes (00_scope.md R6, 10_state.md R18, 30_encoding.md R66). -/

namespace Sys2Proof

/-- The level of a line, or one bit sent on it: `true` is logic 1 (R14). -/
abbrev Level := Bool

/-- The payload unit, 8 bits, bit 7 the most significant (R6, R10). -/
abbrev Byte := BitVec 8

/-- A control word, 32 bits, bit 31 the most significant (R6, R10). -/
abbrev ControlWord := BitVec 32

/-- A command word, 33 bits (R66). -/
abbrev CmdWord := BitVec 33

/-- The sequencer's state code, 3 bits (R29, R75). -/
abbrev FsmCode := BitVec 3

/-- The source's `bit_pos`, 3 bits, 0 the most significant bit of the byte (R31). -/
abbrev BitPos := BitVec 3

end Sys2Proof
end

