-- ==== Sys2Proof/Config.lean ====
section
/-! DEFINITION. What is fixed when the block is built (10_state.md R36, 00_scope.md R7), and the values the
spec leaves open. -/

namespace Sys2Proof

/-- A board pin identifier: "integers or board-specific labels" (R36). -/
inductive PinId where
  | number (n : Int)
  | label (name : String)
  deriving DecidableEq, Repr

/-- The two variants of `DISABLE` (R8). -/
inductive DisableMode where
  | noPulse
  | wordCycle
  deriving DecidableEq, Repr, Inhabited

/-- The configuration (R36). No step changes it. It is held in State so that a claim over all states is a claim
over all configurations (log 1). -/
structure Config where
  /-- The pin driven by `CLOCK_Q` (key `fpga_sclk`). -/
  clockPin : PinId
  /-- The pin driven by `DATA_Q` (key `fpga_sdata`). -/
  dataPin : PinId
  /-- The `DISABLE` variant (R8). -/
  disableMode : DisableMode
  /-- The payload byte of a virtual position (R45, D7). -/
  virtualByte : Byte
  /-- The width of `LEN_Q` and `BYTE_POS`; `none` is unbounded (R7, D5). -/
  lenBits : Option Nat
  /-- Clock cycles per micro-step, at least 1 (R7, D10). -/
  stepCycles : Nat
  deriving DecidableEq, Repr

/-- OPEN in the spec (R8, D6): which variant of `DISABLE` the block of `State.reset` implements. No body: nothing
can be proved of it (log 2). -/
opaque Config.openDisableMode : DisableMode

/-- OPEN in the spec (R7, D10): clock cycles of a step beyond the first, in the block of `State.reset`. No body
(log 6). -/
opaque Config.openExtraCycles : Nat

/-- FREE VALUE (R134, I5): what `CW_Q` holds after the n-th reset transition. No body (log 11). -/
opaque Config.freeControlWord : Nat → ControlWord

/-- The configuration of `State.reset`. The pins are two distinct identifiers (DESIGN CHOICE, log 3); the virtual
byte is D7's; the length is unbounded (D5); the rest is open. -/
def Config.device : Config where
  clockPin := .number 0
  dataPin := .number 1
  disableMode := Config.openDisableMode
  virtualByte := 0x00#8
  lenBits := none
  stepCycles := Config.openExtraCycles + 1

end Sys2Proof
end

