-- ==== Sys2Proof/Syntax.lean ====
section
/-! DEFINITION. The instructions: the two host commands and the eight sequencer micro-steps (00_scope.md R3). -/

namespace Sys2Proof

/-- One constructor per row of spec/opcode_table.json. -/
inductive Instr where
  /-- `TRANSMIT cw, [bytes]` (40_commands.md R87). -/
  | transmit (cw : ControlWord) (data : List Byte)
  /-- `DISABLE` (40_commands.md R88); the word's other bits and the payload are ignored. -/
  | disable
  /-- `IDLE`, 0b000 (41_sequencer.md R96). -/
  | idle
  /-- `S_DPAY`, 0b001 (R97). -/
  | sDpay
  /-- `S_CRISE`, 0b010 (R98). -/
  | sCrise
  /-- `S_DCTL`, 0b011 (R99). -/
  | sDctl
  /-- `S_CFALL`, 0b100 (R100). -/
  | sCfall
  /-- `S_FCLK`, 0b101 (R101). -/
  | sFclk
  /-- `S_FDATA`, 0b110 (R102). -/
  | sFdata
  /-- The reserved code 0b111 (R103). -/
  | reservedFsm
  deriving DecidableEq, Repr

/-- What selects an instruction: a command on the port, or the sequencer's own state code (R65, R75, R82). -/
inductive Encoding where
  | command (word : CmdWord) (data : List Byte)
  | fsm (code : FsmCode)
  deriving DecidableEq, Repr

end Sys2Proof
end

