-- ==== Sys2Proof/Decode.lean ====
section
/-! DEFINITION. The command word and the sequencer's state codes, decoded and encoded (30_encoding.md R65 to R82). -/

namespace Sys2Proof

/-! ### The sequencer's state codes (R75) -/

def fsmIdle : FsmCode := 0b000#3
def fsmSDpay : FsmCode := 0b001#3
def fsmSCrise : FsmCode := 0b010#3
def fsmSDctl : FsmCode := 0b011#3
def fsmSCfall : FsmCode := 0b100#3
def fsmSFclk : FsmCode := 0b101#3
def fsmSFdata : FsmCode := 0b110#3
/-- Reserved: no transition and no reset leads to it (R76). -/
def fsmReserved : FsmCode := 0b111#3

/-- The micro-step a state code selects. Total over the 3-bit register (R82); the last arm is 0b111 alone, the
seven other codes having arms of their own. -/
def decodeFsm (code : FsmCode) : Instr :=
  if code = fsmIdle then .idle
  else if code = fsmSDpay then .sDpay
  else if code = fsmSCrise then .sCrise
  else if code = fsmSDctl then .sDctl
  else if code = fsmSCfall then .sCfall
  else if code = fsmSFclk then .sFclk
  else if code = fsmSFdata then .sFdata
  else .reservedFsm

/-! ### The command word (R66) -/

/-- `OP`, bit 32: 0 is `TRANSMIT`, 1 is `DISABLE` (R67). -/
def cmdOp (word : CmdWord) : Bool := word.getLsbD 32

/-- `CWF`, bits 31:0 (R68). -/
def cmdControlWord (word : CmdWord) : ControlWord := word.extractLsb' 0 32

/-- A command word and its payload operand: told apart by bit 32 alone (R78); every word has a meaning (R77). -/
def decodeCommand (word : CmdWord) (data : List Byte) : Instr :=
  if cmdOp word then .disable else .transmit (cmdControlWord word) data

/-- The word of a `TRANSMIT`: `OP` = 0 over the control word (R66). -/
def transmitWord (cw : ControlWord) : CmdWord := cw.setWidth 33

/-- The word of a `DISABLE`: `OP` = 1 over a zero field, as an assembler writes it (R68). -/
def disableWord : CmdWord := 0x100000000#33

/-- The instruction an encoding selects. Total (R82). -/
def decode (e : Encoding) : Instr :=
  match e with
  | .command word data => decodeCommand word data
  | .fsm code => decodeFsm code

/-- The encoding of an instruction (R66, R75). -/
def encode (i : Instr) : Encoding :=
  match i with
  | .transmit cw data => .command (transmitWord cw) data
  | .disable => .command disableWord []
  | .idle => .fsm fsmIdle
  | .sDpay => .fsm fsmSDpay
  | .sCrise => .fsm fsmSCrise
  | .sDctl => .fsm fsmSDctl
  | .sCfall => .fsm fsmSCfall
  | .sFclk => .fsm fsmSFclk
  | .sFdata => .fsm fsmSFdata
  | .reservedFsm => .fsm fsmReserved

/-! ### Words as numbers -/

/-- Why a number is no encoding of this block. -/
inductive DecodeError where
  /-- A width that neither a state code nor a command word has. -/
  | noSuchWidth (nbits : Nat)
  /-- A bit is set above the 3 bits of a state code or the 33 bits of a command word. -/
  | bitsAboveWord (w : Nat)
  deriving DecidableEq, Repr

/-- The encoding laid out in `nbits` bits: up to one byte holds a state code, up to five bytes a command word with
an empty payload (log 14). The bits above the code or the word are zero. -/
def encodingOfNat (nbits w : Nat) : Except DecodeError Encoding :=
  if nbits ≤ 8 then
    if w < 8 then .ok (.fsm (BitVec.ofNat 3 w)) else .error (.bitsAboveWord w)
  else if nbits ≤ 40 then
    if w < 2 ^ 33 then .ok (.command (BitVec.ofNat 33 w) []) else .error (.bitsAboveWord w)
  else .error (.noSuchWidth nbits)

/-- The instruction of a number of `nbits` bits, its first word in the low bits. -/
def decodeTableWord (nbits w : Nat) : Option Instr :=
  match encodingOfNat nbits w with
  | .ok e => some (decode e)
  | .error _ => none

/-! ### The opcode table (R82) -/

/-- A row of spec/opcode_table.json: the word's bits under `mask` are `value`. -/
structure OpcodeRow where
  mnemonic : String
  mask : Nat
  value : Nat
  deriving DecidableEq, Repr

/-- The rows of format `command`: bit 32 selects (R67). -/
def commandRows : List OpcodeRow :=
  [⟨"TRANSMIT", 0x100000000, 0x000000000⟩, ⟨"DISABLE", 0x100000000, 0x100000000⟩]

/-- The rows of format `fsm_state` (R75). -/
def fsmRows : List OpcodeRow :=
  [⟨"IDLE", 0b111, 0b000⟩, ⟨"S_DPAY", 0b111, 0b001⟩, ⟨"S_CRISE", 0b111, 0b010⟩, ⟨"S_DCTL", 0b111, 0b011⟩,
   ⟨"S_CFALL", 0b111, 0b100⟩, ⟨"S_FCLK", 0b111, 0b101⟩, ⟨"S_FDATA", 0b111, 0b110⟩, ⟨"RESERVED_FSM", 0b111, 0b111⟩]

/-- The number `w` is selected by the row. -/
def rowSelects (row : OpcodeRow) (w : Nat) : Bool := w &&& row.mask == row.value

/-- The table's name of an instruction. -/
def mnemonicOf (i : Instr) : String :=
  match i with
  | .transmit _ _ => "TRANSMIT"
  | .disable => "DISABLE"
  | .idle => "IDLE"
  | .sDpay => "S_DPAY"
  | .sCrise => "S_CRISE"
  | .sDctl => "S_DCTL"
  | .sCfall => "S_CFALL"
  | .sFclk => "S_FCLK"
  | .sFdata => "S_FDATA"
  | .reservedFsm => "RESERVED_FSM"

/-- The names of the rows, among those of the encoding's own format, that select an encoding. -/
def rowsSelecting (e : Encoding) : List String :=
  match e with
  | .command word _ => (commandRows.filter fun r => rowSelects r word.toNat).map (·.mnemonic)
  | .fsm code => (fsmRows.filter fun r => rowSelects r code.toNat).map (·.mnemonic)

end Sys2Proof
end

