-- ==== Sys2Proof/Machine/State.lean ====
section
/-! DEFINITION. The state of the block (10_state.md R18), what the host drives (40_commands.md R83), and the
reasons a step stops. -/

namespace Sys2Proof.Machine

/-- The two lines (20_memory.md R43). -/
inductive Line where
  | clock
  | data
  deriving DecidableEq, Repr

/-- The two host commands, as the trace names them (10_state.md R27). -/
inductive Op where
  | transmit
  | disable
  deriving DecidableEq, Repr

/-- An event of the trace (10_state.md R27). -/
inductive Event where
  /-- A `LineWrite`, also when the level does not change (00_scope.md R14). -/
  | write (line : Line) (v : Level)
  /-- A command was accepted. -/
  | accept (op : Op)
  /-- Reset was applied. -/
  | reset
  deriving DecidableEq, Repr

/-- `SRC_Q`: where payload bytes come from (10_state.md R25). -/
inductive Src where
  | buffer
  | virtual
  deriving DecidableEq, Repr

/-- The payload space: cells of (index, byte), indices strictly rising; an index that is not listed holds no byte
(20_memory.md R43, R44; log 13). -/
abbrev Memory := List Host.Cell

/-- The block's inputs, as the host drives them in one step (40_commands.md R83). -/
structure Port where
  rst : Bool
  cmdValid : Bool
  cmdWord : CmdWord
  cmdData : List Byte
  deriving DecidableEq, Repr

/-- No reset, no command. -/
def Port.quiet : Port := { rst := false, cmdValid := false, cmdWord := 0#33, cmdData := [] }

/-- The block's own fault (60_exceptions.md R117), recorded as `FAULT_Q` alone. -/
inductive FaultReason where
  | reservedState
  deriving DecidableEq, Repr

/-- The state: the record of 10_state.md R18, the configuration (R36, log 1), the host's part (log 7), and one
field of the model's own (log 11). -/
structure State where
  /-- The configuration; no step changes it. -/
  cfg : Config
  /-- `CLOCK_Q` (R20). -/
  clockQ : Level
  /-- `DATA_Q` (R21). -/
  dataQ : Level
  /-- `CW_Q` (R23). -/
  cwQ : ControlWord
  /-- `LEN_Q` (R24). -/
  lenQ : Nat
  /-- `SRC_Q` (R25). -/
  srcQ : Src
  /-- `PB` (R26); `none` is the spec's "unbound" (R40). -/
  pb : Option Memory
  /-- `FSM` (R29). -/
  fsm : FsmCode
  /-- `BYTE_POS` (R30). -/
  bytePos : Nat
  /-- `BIT_POS` (R31). -/
  bitPos : BitPos
  /-- `FAULT_Q` (R35). -/
  faultQ : Bool
  /-- `TRACE` (R27), oldest event first. -/
  trace : List Event
  /-- The levels the host drives in this step. -/
  port : Port
  /-- What the host means to drive in the following steps, one entry a step; after the last entry the levels hold
  (log 7). An entry never changes a pending command (log 25). -/
  script : List Port
  /-- The model's own: how many free values have been taken. -/
  freeIdx : Nat
  deriving DecidableEq, Repr

/-- Why the model stops with a fault. Both are safe: no run from reset reaches the states they are raised in
(20_memory.md R44: the index "is never out of range"). The block's own fault is not here: it is a next state
with `FAULT_Q` set (log 9). -/
inductive Fault where
  /-- Raised by the payload read of `S_DPAY` when no buffer is bound. Safe. -/
  | payloadUnbound
  /-- Raised by the payload read of `S_DPAY` at an index that is not in 0..`LEN_Q`-1 or holds no byte. Safe. -/
  | payloadOutOfRange
  deriving DecidableEq, Repr

/-- Why the model gives an input no meaning (40_commands.md R86, 60_exceptions.md R120). -/
inductive Refusal where
  /-- Raised by exec's arm of an instruction that has no meaning yet; none at present. Safe. -/
  | notModelled (mnemonic : String)
  /-- Raised at the acceptance of a `TRANSMIT` of 2^`LEN_BITS` bytes or more, `LEN_BITS` bounded (R86). Safe. -/
  | lengthTooLarge
  /-- Raised by every step under a configuration with one pin for both lines (R86). Safe. -/
  | samePin
  deriving DecidableEq, Repr

/-- The state of the reset rule with `TRACE = [Reset]` (10_state.md R40, 70_reset_and_hazards.md R136). `cwQ`,
which the spec leaves unspecified, is 0 (DESIGN CHOICE, log 10); the ports are quiet (log 7). -/
def State.reset : State where
  cfg := Config.device
  clockQ := false
  dataQ := false
  cwQ := 0x00000000#32
  lenQ := 0
  srcQ := .buffer
  pb := none
  fsm := fsmIdle
  bytePos := 0
  bitPos := 0#3
  faultQ := false
  trace := [.reset]
  port := Port.quiet
  script := []
  freeIdx := 0

end Sys2Proof.Machine
end

