-- ==== Sys2Proof/WellFormed.lean ====
section
/-! DEFINITION. What the spec asks of a configuration (10_state.md R36) and of a command (40_commands.md R86). -/

namespace Sys2Proof

/-- A payload of `n` bytes fits the length register: `n < 2^LEN_BITS` where `LEN_BITS` is bounded (R86). -/
def Config.lengthFits (cfg : Config) (n : Nat) : Bool :=
  match cfg.lenBits with
  | none => true
  | some b => decide (n < 2 ^ b)

/-- The two lines are on two pins (R36, D15). -/
def Config.pinsDistinct (cfg : Config) : Bool :=
  decide (cfg.clockPin ≠ cfg.dataPin)

/-- The legal values of the configuration table (R36). -/
def Config.wellFormed (cfg : Config) : Bool :=
  cfg.pinsDistinct && decide (1 ≤ cfg.stepCycles)

/-- The one limit on an instruction: the payload length of a `TRANSMIT` (R77, R86). -/
def Instr.wellFormed (cfg : Config) (i : Instr) : Bool :=
  match i with
  | .transmit _ data => cfg.lengthFits data.length
  | .disable => true
  | .idle => true
  | .sDpay => true
  | .sCrise => true
  | .sDctl => true
  | .sCfall => true
  | .sFclk => true
  | .sFdata => true
  | .reservedFsm => true

end Sys2Proof
end

