-- ==== Sys2Proof/Machine/Flags.lean ====
section
/-! DEFINITION. The status outputs (10_state.md R34, R35; 40_commands.md R83) and the conditions on them. -/

namespace Sys2Proof.Machine

/-- `BUSY = (FSM != IDLE)` (R34). -/
def State.busy (s : State) : Bool := decide (s.fsm ≠ fsmIdle)

/-- The `fault` output (R35, R83). -/
def State.fault (s : State) : Bool := s.faultQ

/-- `cmd_ready = (FSM = IDLE) and (FAULT_Q = 0) and (rst = 0)` (R83). -/
def State.cmdReady (s : State) : Bool := decide (s.fsm = fsmIdle) && !s.faultQ && !s.port.rst

/-- The CLOCK pin's level (R20, R83). -/
def State.sclk (s : State) : Level := s.clockQ

/-- The DATA pin's level (R21, R83). -/
def State.sdata (s : State) : Level := s.dataQ

/-- A command is accepted in this step (R84). -/
def State.accepts (s : State) : Bool := s.port.cmdValid && s.cmdReady

/-- A command is presented in this step and not accepted in it: it is held (R85). -/
def State.pending (s : State) : Bool := s.port.cmdValid && !s.cmdReady

/-- The sequencer has a step: reset, a micro-step, or an acceptance (41_sequencer.md R94). -/
def State.hasStep (s : State) : Bool :=
  s.port.rst || (!s.faultQ && (decide (s.fsm ≠ fsmIdle) || s.port.cmdValid))

/-- A final state: idle, no fault, no reset, no command presented (41_sequencer.md R113). -/
def State.final (s : State) : Bool :=
  decide (s.fsm = fsmIdle) && !s.faultQ && !s.port.rst && !s.port.cmdValid

end Sys2Proof.Machine
end

