-- ==== Sys2Proof/Machine/Operands.lean ====
section
/-! DEFINITION. The operands of the micro-steps: the payload byte and bit, the control bit, and the two constants
(00_scope.md R9, R13; 20_memory.md R43 to R45; 30_encoding.md R72, R73). -/

namespace Sys2Proof.Machine

/-- `CW_ENABLE`, "enable bitbang / begin transfer" (R9). -/
def cwEnable : ControlWord := 0x0000FAB1#32

/-- `CW_DISABLE`, "disable bitbang / end transfer" (R9). -/
def cwDisable : ControlWord := 0x0000FAB0#32

/-! ### The payload space -/

/-- The byte at an index, if one is listed. -/
def Memory.read : Memory → Nat → Option Byte
  | [], _ => none
  | (a, b) :: m, i => if a = i then some b else Memory.read m i

/-- A list of bytes laid out from an index on. -/
def Memory.bindFrom : Nat → List Byte → Memory
  | _, [] => []
  | a, b :: bs => (a, b) :: Memory.bindFrom (a + 1) bs

/-- The payload bound at acceptance: byte k of the list at index k (R44, R57). -/
def Memory.bind (bytes : List Byte) : Memory := Memory.bindFrom 0 bytes

/-- The byte the payload space holds at an index, if a buffer is bound and the index is listed. -/
def State.byteAt (s : State) (i : Nat) : Option Byte := s.pb.bind fun m => Memory.read m i

/-- The canonical form: indices strictly rising. No cell equals what an unlisted index reads as, since that is no
byte at all (log 13). -/
def Memory.wf : Memory → Bool
  | [] => true
  | [_] => true
  | (a, _) :: (a', b') :: m => decide (a < a') && Memory.wf ((a', b') :: m)

/-- `PayloadRead(i)`, defined for `0 <= i < LEN_Q` on a bound buffer (R13, R44). -/
def payloadRead (s : State) (i : Nat) : Except Fault Byte :=
  match s.pb with
  | none => .error .payloadUnbound
  | some m =>
    if i < s.lenQ then
      match Memory.read m i with
      | some b => .ok b
      | none => .error .payloadOutOfRange
    else .error .payloadOutOfRange

/-- The payload byte of the current position: from the buffer, or the virtual byte with no read (R45, R73). -/
def payloadByte (s : State) : Except Fault Byte :=
  match s.srcQ with
  | .buffer => payloadRead s s.bytePos
  | .virtual => .ok s.cfg.virtualByte

/-! ### Bits -/

/-- The payload bit at bit position p: bit `7 - p` of the byte (R73). -/
def payloadBit (b : Byte) (p : BitPos) : Level := b.getLsbD (7 - p.toNat)

/-- `idx(k, p) = 31 - (8 * (k mod 4) + p)` (R72). -/
def controlIndex (k : Nat) (p : BitPos) : Nat := 31 - (8 * (k % 4) + p.toNat)

/-- The control bit of byte position k and bit position p (R72). -/
def controlBit (w : ControlWord) (k : Nat) (p : BitPos) : Level := w.getLsbD (controlIndex k p)

end Sys2Proof.Machine
end

