-- ==== Sys2Proof/Machine/Ops.lean ====
section
/-! DEFINITION. The operations the micro-steps share: the line write, the jump, the fault, the reset transition and
the host's turn (00_scope.md R13; 60_exceptions.md R117; 70_reset_and_hazards.md R134). -/

namespace Sys2Proof.Machine

/-- An event goes to the end of the trace (10_state.md R27). -/
def State.record (s : State) (e : Event) : State := { s with trace := s.trace ++ [e] }

/-- The level of one line register. -/
def State.setLine (s : State) (l : Line) (v : Level) : State :=
  match l with
  | .clock => { s with clockQ := v }
  | .data => { s with dataQ := v }

/-- `LineWrite(L, v)`: the line's register and an event of the trace (20_memory.md R46). -/
def State.lineWrite (s : State) (l : Line) (v : Level) : State := (s.setLine l v).record (.write l v)

/-- `FSM <- code`, the sequencer's jump (00_scope.md R13). -/
def State.goto (s : State) (code : FsmCode) : State := { s with fsm := code }

/-- The end of S_CFALL: the position advances, and the byte loop ends after byte `LEN_Q - 1` (41_sequencer.md R100,
R105). -/
def State.advance (s : State) : State :=
  if s.bitPos.toNat < 7 then
    { s with bitPos := s.bitPos + 1#3, fsm := fsmSDpay }
  else
    { s with
      bitPos := 0#3
      bytePos := s.bytePos + 1
      fsm := if s.bytePos + 1 < s.lenQ then fsmSDpay else fsmSFclk }

/-! ### The fault and the reset that clears it -/

/-- The cause code of a fault (R117). No register holds it. -/
def faultCause (r : FaultReason) : Nat :=
  match r with
  | .reservedState => 1

/-- `raise Fault(reason)`: sets `FAULT_Q` and records nothing else; the sequencer stops where it stands, the lines
hold their levels (R117, R123). -/
def raiseFault (r : FaultReason) (s : State) : State :=
  match r with
  | .reservedState => { s with faultQ := true }

/-- The reset transition, the only thing that clears a fault (R134). It performs no line write. `CW_Q` takes a free
value (log 11). -/
def resetTransition (s : State) : State :=
  { s with
    clockQ := false
    dataQ := false
    fsm := fsmIdle
    faultQ := false
    bytePos := 0
    bitPos := 0#3
    lenQ := 0
    srcQ := .buffer
    pb := none
    cwQ := Config.freeControlWord s.freeIdx
    freeIdx := s.freeIdx + 1
    trace := s.trace ++ [.reset] }

/-! ### The host's part of a step -/

/-- The levels of a host that keeps a command on the port stable: the next levels it means to drive, with the old
command in them if they still present one (40_commands.md R85, R92 duty 4). -/
def Port.held (old p : Port) : Port :=
  if p.cmdValid then { p with cmdWord := old.cmdWord, cmdData := old.cmdData } else p

/-- Between two steps the host drives the next levels of its script; with none left the levels hold (log 7). A pending
command is kept or withdrawn, never changed: the host has no move that breaks its duty (R92; log 25). -/
def State.hostTurn (s : State) (pending : Bool) : State :=
  match s.script with
  | [] => s
  | p :: ps => { s with port := if pending then s.port.held p else p, script := ps }

/-- The host's turn follows a step that has a next state. -/
def afterStep (pending : Bool) (o : Host.Outcome State Fault Refusal) : Host.Outcome State Fault Refusal :=
  match o with
  | .next s => .next (s.hostTurn pending)
  | .fault r => .fault r
  | .refused r => .refused r

/-- The next state of an outcome, if it has one. -/
def nextOf (o : Host.Outcome State Fault Refusal) : Option State :=
  match o with
  | .next s => some s
  | .fault _ => none
  | .refused _ => none

end Sys2Proof.Machine
end

