-- ==== Sys2Proof/Machine/Commands.lean ====
section
/-! DEFINITION. The two host commands (40_commands.md). -/

namespace Sys2Proof.Machine

/-- The acceptance of `TRANSMIT` (R87). -/
def acceptTransmit (cw : ControlWord) (data : List Byte) (s : State) : State :=
  { s with
    cwQ := cw
    pb := some (Memory.bind data)
    lenQ := data.length
    srcQ := .buffer
    bytePos := 0
    bitPos := 0#3
    fsm := if 0 < data.length then fsmSDpay else fsmSFclk
    trace := s.trace ++ [.accept .transmit] }

/-- The number of byte positions of a `DISABLE` (R24, R88). -/
def disableLength (mode : DisableMode) : Nat :=
  match mode with
  | .noPulse => 0
  | .wordCycle => 4

/-- The acceptance of `DISABLE` (R88). `PB` is not written (log 12). -/
def acceptDisable (s : State) : State :=
  { s with
    cwQ := cwDisable
    srcQ := .virtual
    lenQ := disableLength s.cfg.disableMode
    bytePos := 0
    bitPos := 0#3
    fsm := if 0 < disableLength s.cfg.disableMode then fsmSDpay else fsmSFclk
    trace := s.trace ++ [.accept .disable] }

/-- A `TRANSMIT` on the port: accepted when the port is ready (R84), refused when its payload does not fit the
length register (R86), held without effect when the port is not ready (R85). -/
def presentTransmit (cw : ControlWord) (data : List Byte) (s : State) : Host.Outcome State Fault Refusal :=
  if s.cmdReady then
    if s.cfg.lengthFits data.length then .next (acceptTransmit cw data s) else .refused .lengthTooLarge
  else .next s

/-- A `DISABLE` on the port: accepted when the port is ready (R84), else held without effect (R85). -/
def presentDisable (s : State) : Host.Outcome State Fault Refusal :=
  if s.cmdReady then .next (acceptDisable s) else .next s

/-- `TRANSMIT cw, [bytes]` (R87). -/
def execTransmit (cw : ControlWord) (data : List Byte) (s : State) : Host.Outcome State Fault Refusal :=
  presentTransmit cw data s

/-- `DISABLE` (R88). -/
def execDisable (s : State) : Host.Outcome State Fault Refusal := presentDisable s

end Sys2Proof.Machine
end

