-- ==== Sys2Proof/Machine/Sequencer.lean ====
section
/-! DEFINITION. The sequencer's micro-steps (41_sequencer.md R96 to R103) and which instruction a step runs (R95). -/

namespace Sys2Proof.Machine

/-- `IDLE`: accept the presented command, or nothing (R96). -/
def execIdle (s : State) : Host.Outcome State Fault Refusal :=
  if s.port.cmdValid then
    if cmdOp s.port.cmdWord then presentDisable s
    else presentTransmit (cmdControlWord s.port.cmdWord) s.port.cmdData s
  else .next s

/-- `S_DPAY`: DATA takes the payload bit (R97). -/
def execSDpay (s : State) : Host.Outcome State Fault Refusal :=
  match payloadByte s with
  | .error f => .fault f
  | .ok b => .next ((s.lineWrite .data (payloadBit b s.bitPos)).goto fsmSCrise)

/-- `S_CRISE`: CLOCK rises (R98). -/
def execSCrise (s : State) : Host.Outcome State Fault Refusal :=
  .next ((s.lineWrite .clock true).goto fsmSDctl)

/-- `S_DCTL`: DATA takes the control bit while CLOCK is high (R99). -/
def execSDctl (s : State) : Host.Outcome State Fault Refusal :=
  .next ((s.lineWrite .data (controlBit s.cwQ s.bytePos s.bitPos)).goto fsmSCfall)

/-- `S_CFALL`: CLOCK falls and the position advances (R100). -/
def execSCfall (s : State) : Host.Outcome State Fault Refusal :=
  .next (s.lineWrite .clock false).advance

/-- `S_FCLK`: CLOCK is forced to 0 (R101). -/
def execSFclk (s : State) : Host.Outcome State Fault Refusal :=
  .next ((s.lineWrite .clock false).goto fsmSFdata)

/-- `S_FDATA`: DATA is forced to 0 and the transmission ends (R102). -/
def execSFdata (s : State) : Host.Outcome State Fault Refusal :=
  .next ((s.lineWrite .data false).goto fsmIdle)

/-- The reserved code raises the block's fault and writes no line (R103). -/
def execReservedFsm (s : State) : Host.Outcome State Fault Refusal :=
  .next (raiseFault .reservedState s)

/-! ### What a step runs -/

/-- The instruction of a step with no reset and no fault: in `IDLE` the presented command where there is one, else
the micro-step the state code selects (R84, R95). -/
def selected (s : State) : Instr :=
  if s.fsm = fsmIdle ∧ s.port.cmdValid = true then decodeCommand s.port.cmdWord s.port.cmdData
  else decodeFsm s.fsm

/-- What goes before the selected instruction: a configuration the model gives no meaning (40_commands.md R86), then
reset, then a fault, in which the block has no step and keeps its state (60_exceptions.md R122; log 8). `none` lets
the instruction run. -/
def beforeSelected (s : State) : Option (Host.Outcome State Fault Refusal) :=
  if s.cfg.pinsDistinct then
    if s.port.rst then some (.next (resetTransition s))
    else if s.faultQ then some (.next s)
    else none
  else some (.refused .samePin)

/-- The payload source of a placed state code: the state's own, or the virtual byte where that could not be read
(log 14). -/
def readableSource (s : State) : Src :=
  match payloadByte s with
  | .ok _ => s.srcQ
  | .error _ => .virtual

/-- A state whose next step runs the encoding on the block (log 14). For a command the port presents it to an idle
block; for a state code the register holds it and no command is presented. Reset and fault are off, and a payload
source that could not be read is the virtual one. -/
def placeEncoding (s : State) (e : Encoding) : State :=
  match e with
  | .command word data =>
    { s with
      fsm := fsmIdle
      faultQ := false
      port := { rst := false, cmdValid := true, cmdWord := word, cmdData := data } }
  | .fsm code =>
    { s with
      fsm := code
      faultQ := false
      srcQ := readableSource s
      port := { s.port with rst := false, cmdValid := false } }

end Sys2Proof.Machine
end

