-- ==== Sys2Proof/Machine/Dispatch.lean ====
section
/-! DEFINITION. One arm per instruction. -/

namespace Sys2Proof.Machine

def exec (i : Instr) (s : State) : Host.Outcome State Fault Refusal :=
  match i with
  -- host commands
  | .transmit cw data => Sys2Proof.Machine.execTransmit cw data s
  | .disable => Sys2Proof.Machine.execDisable s
  -- sequencer micro-steps
  | .idle => Sys2Proof.Machine.execIdle s
  | .sDpay => Sys2Proof.Machine.execSDpay s
  | .sCrise => Sys2Proof.Machine.execSCrise s
  | .sDctl => Sys2Proof.Machine.execSDctl s
  | .sCfall => Sys2Proof.Machine.execSCfall s
  | .sFclk => Sys2Proof.Machine.execSFclk s
  | .sFdata => Sys2Proof.Machine.execSFdata s
  | .reservedFsm => Sys2Proof.Machine.execReservedFsm s

end Sys2Proof.Machine
end

