-- ==== Sys2Proof/Machine/Step.lean ====
section
/-! DEFINITION. One step of the block (41_sequencer.md R95), followed by the host's turn. -/

namespace Sys2Proof.Machine

/-- One step: what goes before the selected instruction, else that instruction; then the turn of the host, which knows
from `cmd_ready` at the start of the step whether its command was accepted. -/
def step (s : State) : Host.Outcome State Fault Refusal :=
  afterStep s.pending ((beforeSelected s).getD (exec (selected s) s))

/-- `s` with the instruction of a number placed where the next step runs it (log 14); `s` itself where the number
is no encoding. -/
def State.withFetchWord (s : State) (nbits w : Nat) : State :=
  match encodingOfNat nbits w with
  | .ok e => placeEncoding s e
  | .error _ => s

end Sys2Proof.Machine
end

