-- ==== Sys2Proof/Machine/Assembler.lean ====
section
/-! DEFINITION. The command syntax: assembler, the pseudo-command `ENABLE`, disassembler (30_encoding.md R79 to R81;
log 20). A text is a list of characters. -/

namespace Sys2Proof.Machine

/-- A line of the syntax (R79, R80), its literals not yet checked. -/
inductive AsmLine where
  | transmit (cw : Nat) (bytes : List Nat)
  | enable (bytes : List Nat)
  | disable
  deriving DecidableEq, Repr

/-- Why the assembler refuses a text, naming the line (R79, R120). -/
inductive AsmError where
  /-- A control word over 32 bits or a byte over 255. -/
  | literalOutOfRange (line : Nat)
  /-- Not a line of the syntax. -/
  | badSyntax (line : Nat)
  deriving DecidableEq, Repr

/-! ### From a line to its command -/

/-- The instruction of a `TRANSMIT` of literals, each in its range (R79). -/
def assembleTransmit (line cw : Nat) (bytes : List Nat) : Except AsmError Instr :=
  if cw < 2 ^ 32 ∧ bytes.all (fun b => decide (b ≤ 255)) = true then
    .ok (.transmit (BitVec.ofNat 32 cw) (bytes.map (BitVec.ofNat 8)))
  else .error (.literalOutOfRange line)

/-- The instruction of a line; `ENABLE` expands to a `TRANSMIT` of `CW_ENABLE` (R80). -/
def assembleLine (line : Nat) (a : AsmLine) : Except AsmError Instr :=
  match a with
  | .transmit cw bytes => assembleTransmit line cw bytes
  | .enable bytes => assembleTransmit line cwEnable.toNat bytes
  | .disable => .ok .disable

/-! ### From text to a line -/

inductive Token where
  | text (cs : List Char)
  | comma
  | lbracket
  | rbracket
  deriving DecidableEq, Repr

/-- The word collected so far, last character first, as a token. -/
def endWord (acc : List Char) : List Token :=
  match acc with
  | [] => []
  | _ :: _ => [.text acc.reverse]

/-- The tokens of a line; `;` starts a comment (R79). -/
def tokensFrom : List Char → List Char → List Token
  | acc, [] => endWord acc
  | acc, c :: cs =>
    if c = ';' then endWord acc
    else if c = ' ' then endWord acc ++ tokensFrom [] cs
    else if c = '\t' then endWord acc ++ tokensFrom [] cs
    else if c = ',' then endWord acc ++ .comma :: tokensFrom [] cs
    else if c = '[' then endWord acc ++ .lbracket :: tokensFrom [] cs
    else if c = ']' then endWord acc ++ .rbracket :: tokensFrom [] cs
    else tokensFrom (c :: acc) cs

def tokens (line : List Char) : List Token := tokensFrom [] line

/-- The value of a digit, decimal or hexadecimal of either case. -/
def digitValue (c : Char) : Nat :=
  let n := c.toNat
  if 48 ≤ n ∧ n ≤ 57 then n - 48
  else if 65 ≤ n ∧ n ≤ 70 then n - 55
  else if 97 ≤ n ∧ n ≤ 102 then n - 87
  else 16

/-- The number the digits spell on top of `acc`, if each is a digit of the base. -/
def digitsValue (base : Nat) : Nat → List Char → Option Nat
  | acc, [] => some acc
  | acc, c :: cs => if digitValue c < base then digitsValue base (acc * base + digitValue c) cs else none

/-- An unsigned literal, `0x` hexadecimal or decimal (R79). -/
def literal (cs : List Char) : Option Nat :=
  match cs with
  | [] => none
  | '0' :: 'x' :: d :: ds => digitsValue 16 0 (d :: ds)
  | d :: ds => digitsValue 10 0 (d :: ds)

/-- The literals up to the closing bracket, at least one. -/
def itemsToClose : List Token → Option (List Nat)
  | [.text n, .rbracket] => (literal n).map fun v => [v]
  | .text n :: .comma :: rest =>
    match literal n, itemsToClose rest with
    | some v, some vs => some (v :: vs)
    | _, _ => none
  | _ => none

/-- A bracketed list of literals (R79). -/
def bracketed (ts : List Token) : Option (List Nat) :=
  match ts with
  | [.lbracket, .rbracket] => some []
  | .lbracket :: rest => itemsToClose rest
  | _ => none

def wordTransmit : List Char := ['T', 'R', 'A', 'N', 'S', 'M', 'I', 'T']
def wordDisable : List Char := ['D', 'I', 'S', 'A', 'B', 'L', 'E']
def wordEnable : List Char := ['E', 'N', 'A', 'B', 'L', 'E']

/-- The commands of a line: none when it is blank or a comment, one otherwise; `none` where it is no line of the
syntax. Mnemonics are case-insensitive (R79). -/
def parseLine (ts : List Token) : Option (List AsmLine) :=
  match ts with
  | [] => some []
  | .text m :: rest =>
    if m.map Char.toUpper = wordTransmit then
      match rest with
      | .text n :: .comma :: list =>
        match literal n, bracketed list with
        | some cw, some bytes => some [.transmit cw bytes]
        | _, _ => none
      | _ => none
    else if m.map Char.toUpper = wordEnable then (bracketed rest).map fun bytes => [.enable bytes]
    else if m.map Char.toUpper = wordDisable then (if rest = [] then some [.disable] else none)
    else none
  | _ => none

/-- The commands of a program, its first line numbered `line` (R79). -/
def assembleFrom : Nat → List (List Char) → Except AsmError (List Instr)
  | _, [] => .ok []
  | line, l :: ls =>
    match parseLine (tokens l) with
    | none => .error (.badSyntax line)
    | some [] => assembleFrom (line + 1) ls
    | some (a :: _) =>
      match assembleLine line a, assembleFrom (line + 1) ls with
      | .ok i, .ok is => .ok (i :: is)
      | .error e, _ => .error e
      | .ok _, .error e => .error e

def assemble (program : List (List Char)) : Except AsmError (List Instr) := assembleFrom 1 program

/-! ### From a command to its text -/

/-- The hexadecimal digit of a value below 16, upper case. -/
def hexDigit (n : Nat) : Char := if n < 10 then Char.ofNat (48 + n) else Char.ofNat (55 + n)

/-- A value in a fixed number of hexadecimal digits. -/
def hexFixed : Nat → Nat → List Char
  | 0, _ => []
  | k + 1, n => hexFixed k (n / 16) ++ [hexDigit (n % 16)]

/-- `0x%0<k>X`. -/
def hexLiteral (k n : Nat) : List Char := '0' :: 'x' :: hexFixed k n

/-- The bytes of a list, separated by a comma and a space. -/
def hexList : List Byte → List Char
  | [] => []
  | [b] => hexLiteral 2 b.toNat
  | b :: b' :: bs => hexLiteral 2 b.toNat ++ ',' :: ' ' :: hexList (b' :: bs)

/-- Disassembly of a command word and its payload (R81). -/
def disassemble (word : CmdWord) (data : List Byte) : List Char :=
  if cmdOp word then wordDisable
  else
    wordTransmit ++ ' ' :: hexLiteral 8 (cmdControlWord word).toNat ++ [',', ' ', '['] ++ hexList data ++ [']']

end Sys2Proof.Machine
end

