-- ==== Sys2Proof/Machine/Wire.lean ====
section
/-! DEFINITION. The wire format: the line writes a transmission makes (30_encoding.md R70, R71), written from the
frame's own formula and not from the sequencer. -/

namespace Sys2Proof.Machine

/-- The bit positions of a byte in the order they are sent (00_scope.md R6, R10). -/
def bitPositions : List BitPos := [0#3, 1#3, 2#3, 3#3, 4#3, 5#3, 6#3, 7#3]

/-- `Pulse(d, c)` (R70). -/
def pulse (d c : Level) : List Event :=
  [.write .data d, .write .clock true, .write .data c, .write .clock false]

/-- The eight pulses of the byte at position k (R71). -/
def bytePulses (w : ControlWord) (k : Nat) (b : Byte) : List Event :=
  bitPositions.flatMap fun p => pulse (payloadBit b p) (controlBit w k p)

/-- The pulses of a list of bytes, the first at position k (R71). -/
def framePulses (w : ControlWord) : Nat → List Byte → List Event
  | _, [] => []
  | k, b :: bs => bytePulses w k b ++ framePulses w (k + 1) bs

/-- The two closing writes, CLOCK first (R71, D11). -/
def closingWrites : List Event := [.write .clock false, .write .data false]

/-- `Frame(B, W)` (R71). -/
def frame (bytes : List Byte) (w : ControlWord) : List Event := framePulses w 0 bytes ++ closingWrites

end Sys2Proof.Machine
end

