-- ==== Sys2Proof/Machine/Receiver.lean ====
section
/-! DEFINITION. What a trace delivers: the samples of a receiver at the CLOCK edges (41_sequencer.md R109), the line
levels and their changes (R108, R115). The receiver is no agent of the model (00_scope.md R17). -/

namespace Sys2Proof.Machine

/-! ### Levels -/

/-- The level of a line after a trace, from its level before it; reset forces 0 (70_reset_and_hazards.md R134). -/
def lineAfter (l : Line) : Level → List Event → Level
  | v, [] => v
  | v, .write l' v' :: es => lineAfter l (if l' = l then v' else v) es
  | v, .accept _ :: es => lineAfter l v es
  | _, .reset :: es => lineAfter l false es

/-- The values written to a line, in order. -/
def writesTo (l : Line) : List Event → List Level
  | [] => []
  | .write l' v :: es => if l' = l then v :: writesTo l es else writesTo l es
  | .accept _ :: es => writesTo l es
  | .reset :: es => writesTo l es

/-- How many times a line's level changes over a trace, from its level before it. -/
def levelChanges (l : Line) : Level → List Event → Nat
  | _, [] => 0
  | v, .write l' v' :: es =>
    if l' = l then (if v' = v then 0 else 1) + levelChanges l v' es else levelChanges l v es
  | v, .accept _ :: es => levelChanges l v es
  | v, .reset :: es => (if v then 1 else 0) + levelChanges l false es

/-- How many entries of a list of levels differ from the one before them, the first from `x0` (R115). -/
def transitions : Level → List Level → Nat
  | _, [] => 0
  | x0, x :: xs => (if x = x0 then 0 else 1) + transitions x xs

/-! ### Samples -/

/-- The rising-edge samples of a trace, from the levels before it (R109). -/
def riseFrom : Level → Level → List Event → List Level
  | _, _, [] => []
  | c, d, .write .clock v :: es => if v && !c then d :: riseFrom v d es else riseFrom v d es
  | c, _, .write .data v :: es => riseFrom c v es
  | c, d, .accept _ :: es => riseFrom c d es
  | _, _, .reset :: es => riseFrom false false es

/-- What the falling edge of a reset can sample: DATA before the reset, or 0 (70_reset_and_hazards.md R135; log 16). -/
def resetSample (d : Level) : List Level := if d then [true, false] else [false]

/-- The falling-edge samples of a trace, from the levels before it. A sample is the list of its admitted values: one
for a `Write(CLOCK, 0)`, `resetSample` for a reset that drops CLOCK (R109, R135). -/
def fallFrom : Level → Level → List Event → List (List Level)
  | _, _, [] => []
  | c, d, .write .clock v :: es => if !v && c then [d] :: fallFrom v d es else fallFrom v d es
  | c, _, .write .data v :: es => fallFrom c v es
  | c, d, .accept _ :: es => fallFrom c d es
  | c, d, .reset :: es => if c then resetSample d :: fallFrom false false es else fallFrom false false es

/-- `Rise(T)`: over a trace whose lines start at 0 (R109). -/
def rise (t : List Event) : List Level := riseFrom false false t

/-- `Fall(T)`, with the admitted values of each sample (R109, R135). -/
def fallSamples (t : List Event) : List (List Level) := fallFrom false false t

/-- `bits` is one of the lists of falling-edge samples that the admitted values allow. -/
def admits : List (List Level) → List Level → Bool
  | [], [] => true
  | vs :: rest, b :: bs => vs.contains b && admits rest bs
  | [], _ :: _ => false
  | _ :: _, [] => false

/-! ### What the samples should be -/

/-- The bits of a byte from bit 7 down to bit 0 (R110). -/
def byteBits (b : Byte) : List Level :=
  [b.getLsbD 7, b.getLsbD 6, b.getLsbD 5, b.getLsbD 4, b.getLsbD 3, b.getLsbD 2, b.getLsbD 1, b.getLsbD 0]

/-- The bits of a payload in transmission order (R110). -/
def payloadBits (bytes : List Byte) : List Level := bytes.flatMap byteBits

/-- The first n bits of the endless repetition `W[31], W[30], ..., W[0], W[31], ...` (R111). -/
def controlStream (w : ControlWord) (n : Nat) : List Level :=
  (List.range n).map fun i => w.getLsbD (31 - i % 32)

end Sys2Proof.Machine
end

