-- ==== Sys2Proof/Machine/Timing.lean ====
section
/-! DEFINITION. How many steps and cycles a transmission takes (41_sequencer.md R106, 70_reset_and_hazards.md R146).
No rule of the model depends on the cycles. -/

namespace Sys2Proof.Machine

/-- The micro-steps of a transmission of L byte positions after its acceptance (R106). -/
def transmissionSteps (len : Nat) : Nat := 32 * len + 2

/-- The clock cycles from acceptance to `busy = 0` (R146). -/
def transmissionCycles (cfg : Config) (len : Nat) : Nat := (1 + transmissionSteps len) * cfg.stepCycles

/-- The micro-steps left in the transmission in progress: four a bit, eight bits a byte, and the two idle writes
(R106). -/
def remainingSteps (s : State) : Nat :=
  let bitsLeft := 8 * (s.lenQ - s.bytePos) - s.bitPos.toNat
  if s.fsm = fsmSDpay then 4 * bitsLeft + 2
  else if s.fsm = fsmSCrise then 4 * bitsLeft + 1
  else if s.fsm = fsmSDctl then 4 * bitsLeft
  else if s.fsm = fsmSCfall then 4 * bitsLeft - 1
  else if s.fsm = fsmSFclk then 2
  else if s.fsm = fsmSFdata then 1
  else 0

end Sys2Proof.Machine
end

