-- ==== Sys2Proof/Safety.lean ====
section
/-! DEFINITION. What a state of a run looks like, and what is asked of the host. -/

namespace Sys2Proof.Machine

/-- The four states of a pulse (00_scope.md R16). -/
abbrev pulsing (code : FsmCode) : Prop :=
  code = fsmSDpay ∨ code = fsmSCrise ∨ code = fsmSDctl ∨ code = fsmSCfall

/-- The last control bit of the transmission; 0 when it has no byte position (41_sequencer.md R102). -/
def State.lastControlBit (s : State) : Level :=
  if 0 < s.lenQ then s.cwQ.getLsbD (31 - (8 * ((s.lenQ - 1) % 4) + 7)) else false

/-- What holds at reset and after every step: the idle and CLOCK invariants (10_state.md R41, R42), the position
(R30, R31), the bit DATA holds (R39), what the command bound (R24, R26), and that neither the reserved code nor the
fault is reached (30_encoding.md R76, 60_exceptions.md R116). -/
structure State.Inv (s : State) : Prop where
  noFault : s.faultQ = false
  notReserved : s.fsm ≠ fsmReserved
  /-- R42. -/
  clockHigh : s.clockQ = true ↔ s.fsm = fsmSDctl ∨ s.fsm = fsmSCfall
  /-- R41, its DATA half. -/
  idleData : s.fsm = fsmIdle → s.dataQ = false
  /-- R39: from `S_DPAY` to `S_DCTL` DATA holds the payload bit. -/
  payloadHeld : s.fsm = fsmSCrise ∨ s.fsm = fsmSDctl →
    ∃ b, payloadByte s = .ok b ∧ s.dataQ = payloadBit b s.bitPos
  /-- R39: from `S_DCTL` on DATA holds the control bit. -/
  controlHeld : s.fsm = fsmSCfall → s.dataQ = controlBit s.cwQ s.bytePos s.bitPos
  /-- R102: the closing writes find the last control bit on DATA. -/
  lastHeld : s.fsm = fsmSFclk ∨ s.fsm = fsmSFdata → s.dataQ = s.lastControlBit
  /-- R30, in a pulse. -/
  inRange : pulsing s.fsm → s.bytePos < s.lenQ
  /-- R30 and R31, outside the pulses. -/
  ended : ¬ pulsing s.fsm → s.bytePos = s.lenQ ∧ s.bitPos = 0#3
  /-- R26: a transmission from the buffer has exactly `LEN_Q` bytes bound. -/
  bound : s.fsm ≠ fsmIdle → s.srcQ = .buffer →
    ∃ bytes : List Byte, s.pb = some (Memory.bind bytes) ∧ bytes.length = s.lenQ
  /-- R86: the length of a buffer fits the register. -/
  fits : s.srcQ = .buffer → s.cfg.lengthFits s.lenQ = true
  /-- R23, R24: what `DISABLE` latched. -/
  virtualLatched : s.srcQ = .virtual → s.cwQ = cwDisable ∧ s.lenQ = disableLength s.cfg.disableMode

/-- The payload memory is in its canonical form. -/
def State.MemoryCanonical (s : State) : Prop := ∀ m, s.pb = some m → Memory.wf m = true

/-- The host asserts no reset in the next `n` steps. -/
def State.NoReset (s : State) : Nat → Prop
  | 0 => True
  | n + 1 => s.port.rst = false ∧ ∀ p ∈ s.script.take n, p.rst = false

/-- The host still presents a command, and no reset, after each of the next `n` host turns (40_commands.md R85). That
it is the same command while it is pending is its duty, which the host's turn keeps (R92). -/
def State.PortHeld (s : State) (n : Nat) : Prop := ∀ p ∈ s.script.take n, p.cmdValid = true ∧ p.rst = false

/-- The two states differ at most in the ports and the script: the block is the same. -/
def State.sameBlock (s t : State) : Prop :=
  t = { s with port := t.port, script := t.script }

end Sys2Proof.Machine
end

