-- ==== Sys2Proof/Certificates/Slice0/Obligations.lean ====
section
/-! DEFINITION. The statements for the provers. -/

open Sys2Proof Sys2Proof.Machine

/-! ### Encodings (30_encoding.md) -/

/-- Words written out from the format tables (R66, R75, R81): `OP` in bit 32 over the control word; the eight 3-bit
state codes; numbers with a bit above the word are no encoding. -/
def Obligations.WrittenOutWordsDecode : Prop :=
  decode (.command 0x00000FAB1#33 [0xA5#8]) = .transmit 0x0000FAB1#32 [0xA5#8] ∧
  decode (.command 0x100000000#33 []) = .disable ∧
  decode (.command 0x1DEADBEEF#33 [0x01#8]) = .disable ∧
  decodeTableWord 40 0x0DEADBEEF = some (.transmit 0xDEADBEEF#32 []) ∧
  decodeTableWord 40 0x100000000 = some .disable ∧
  decodeTableWord 40 0x200000000 = none ∧
  decodeTableWord 8 0b000 = some .idle ∧
  decodeTableWord 8 0b001 = some .sDpay ∧
  decodeTableWord 8 0b010 = some .sCrise ∧
  decodeTableWord 8 0b011 = some .sDctl ∧
  decodeTableWord 8 0b100 = some .sCfall ∧
  decodeTableWord 8 0b101 = some .sFclk ∧
  decodeTableWord 8 0b110 = some .sFdata ∧
  decodeTableWord 8 0b111 = some .reservedFsm ∧
  decodeTableWord 8 0b1000 = none

/-- Decoding gives back every instruction that was encoded, and so does decoding its word as a number: the command
word in 40 bits, the state code in 8. Encoding gives back every encoding that was decoded, but for the fields a
`DISABLE` ignores. -/
def Obligations.DecodeAndEncodeAgree : Prop :=
  (∀ i : Instr, decode (encode i) = i) ∧
  (∀ cw : ControlWord, decodeTableWord 40 (transmitWord cw).toNat = some (.transmit cw [])) ∧
  (∀ (i : Instr) (code : FsmCode), encode i = .fsm code → decodeTableWord 8 code.toNat = some i) ∧
  (∀ code : FsmCode, encode (decode (.fsm code)) = .fsm code) ∧
  (∀ (word : CmdWord) (data : List Byte), word.getLsbD 32 = false →
    encode (decode (.command word data)) = .command word data) ∧
  (∀ (word : CmdWord) (data : List Byte), word.getLsbD 32 = true →
    encode (decode (.command word data)) = .command 0x100000000#33 [])

/-- R82: the opcode table alone decodes, and both decoders are total: every command word and every state code is
selected by exactly one row of its format, the row of the instruction the decoder gives. -/
def Obligations.EveryEncodingSelectsOneTableRow : Prop :=
  (∀ (word : CmdWord) (data : List Byte),
    rowsSelecting (.command word data) = [mnemonicOf (decode (.command word data))] ∧
    rowsSelecting (.command word data) = [if word.getLsbD 32 then "DISABLE" else "TRANSMIT"]) ∧
  (∀ code : FsmCode, rowsSelecting (.fsm code) = [mnemonicOf (decode (.fsm code))])

/-- R72: the control-bit index as a formula over the integers never leaves 0..31, and the control bit is that bit of
the word, for every byte position. -/
def Obligations.ControlBitIsTheIndexedBit : Prop :=
  ∀ (w : ControlWord) (k : Nat) (p : BitPos),
    (controlIndex k p : Int) = 31 - (8 * ((k : Int) % 4) + (p.toNat : Int)) ∧
    0 ≤ 31 - (8 * ((k : Int) % 4) + (p.toNat : Int)) ∧
    31 - (8 * ((k : Int) % 4) + (p.toNat : Int)) ≤ 31 ∧
    controlBit w k p = w.getLsbD (controlIndex k p) ∧
    (w >>> controlIndex k p) &&& 1#32 = (if controlBit w k p then 1#32 else 0#32)

/-- R73: the payload bit is bit `7 - p` of the byte, and the byte is the buffer's at the current position or the
virtual byte. -/
def Obligations.PayloadBitIsTheIndexedBit : Prop :=
  (∀ (b : Byte) (p : BitPos),
    p.toNat ≤ 7 ∧ payloadBit b p = b.getLsbD (7 - p.toNat) ∧
    (b >>> (7 - p.toNat)) &&& 1#8 = (if payloadBit b p then 1#8 else 0#8)) ∧
  (∀ (s : State) (bytes : List Byte) (b : Byte), s.srcQ = .buffer → s.pb = some (Memory.bind bytes) →
    bytes.length = s.lenQ → bytes[s.bytePos]? = some b → payloadByte s = .ok b) ∧
  (∀ s : State, s.srcQ = .virtual → payloadByte s = .ok s.cfg.virtualByte)

/-- R74: over a complete block the index visits 31, 30, ..., 0 in transmission order, so the block sends every bit of
the control word exactly once, from bit 31 to bit 0. -/
def Obligations.BlockSendsEveryControlBitOnce : Prop :=
  ∀ (w : ControlWord) (m : Nat),
    ([0, 1, 2, 3].flatMap fun j => bitPositions.map fun p => controlIndex (4 * m + j) p) =
      (List.range 32).map (fun i => 31 - i) ∧
    ([0, 1, 2, 3].flatMap fun j => bitPositions.map fun p => controlBit w (4 * m + j) p) =
      (List.range 32).map (fun i => w.getLsbD (31 - i))

/-- The assembler: `ENABLE` is `TRANSMIT 0x0000FAB1` (R80); a literal out of range is refused, naming the line, and
literals in range give the command (R79). The lines of a program are numbered from 1: a line after lines that assemble
is refused under its own number, whatever follows it, and otherwise adds its own command. -/
def Obligations.AssemblerChecksLiterals : Prop :=
  (∀ (line : Nat) (bytes : List Nat),
    assembleLine line (.enable bytes) = assembleLine line (.transmit 0x0000FAB1 bytes)) ∧
  (∀ (line cw : Nat) (bytes : List Nat), (2 ^ 32 ≤ cw ∨ ∃ b ∈ bytes, 255 < b) →
    assembleLine line (.transmit cw bytes) = .error (.literalOutOfRange line)) ∧
  (∀ (line : Nat) (cw : ControlWord) (data : List Byte),
    assembleLine line (.transmit cw.toNat (data.map BitVec.toNat)) = .ok (.transmit cw data)) ∧
  (∀ line : Nat, assembleLine line .disable = .ok .disable) ∧
  (∀ (before after : List (List Char)) (text : List Char) (is : List Instr), assemble before = .ok is →
    (parseLine (tokens text) = none →
      assemble (before ++ text :: after) = .error (.badSyntax (before.length + 1))) ∧
    (∀ (cw : Nat) (bytes : List Nat), parseLine (tokens text) = some [.transmit cw bytes] →
      (2 ^ 32 ≤ cw ∨ ∃ b ∈ bytes, 255 < b) →
      assemble (before ++ text :: after) = .error (.literalOutOfRange (before.length + 1))) ∧
    (∀ bytes : List Nat, parseLine (tokens text) = some [.enable bytes] → (∃ b ∈ bytes, 255 < b) →
      assemble (before ++ text :: after) = .error (.literalOutOfRange (before.length + 1))) ∧
    (parseLine (tokens text) = some [] → assemble (before ++ [text]) = .ok is) ∧
    (∀ (a : AsmLine) (i : Instr), parseLine (tokens text) = some [a] →
      assembleLine (before.length + 1) a = .ok i → assemble (before ++ [text]) = .ok (is ++ [i])))

/-- Disassembly is read back: the text of a command word and its payload (R81) assembles, as a program of one line,
to the command the word decodes to (R79). -/
def Obligations.DisassemblyAssemblesBack : Prop :=
  ∀ (word : CmdWord) (data : List Byte), assemble [disassemble word data] = .ok [decodeCommand word data]

/-! ### One step (41_sequencer.md section 1) -/

/-- With two distinct pins, no reset and no fault, one step is exec of the selected instruction and then the host's
turn: the presented command when `IDLE` has one, else the micro-step of the state code. The host's turn moves the
next entry of the script to the ports and changes nothing else; with no entry left the levels hold (the model's
convention, log 7). While a command is pending (presented and not accepted in this step) an entry that still presents
one presents the old one (R92 duty 4, in the form of log 25). -/
def Obligations.StepRunsTheSelectedInstruction : Prop :=
  ∀ s : State, s.cfg.clockPin ≠ s.cfg.dataPin → s.port.rst = false → s.faultQ = false →
    step s = afterStep s.pending (exec (selected s) s) ∧
    (s.pending = true ↔ s.port.cmdValid = true ∧ s.cmdReady = false) ∧
    (s.fsm = 0b000#3 → s.port.cmdValid = true →
      selected s = decode (.command s.port.cmdWord s.port.cmdData)) ∧
    (s.fsm ≠ 0b000#3 ∨ s.port.cmdValid = false → selected s = decode (.fsm s.fsm)) ∧
    (∀ (u : State) (b : Bool), afterStep b (.next u) = .next (u.hostTurn b) ∧
      (u.script = [] → u.hostTurn b = u) ∧
      (∀ (p : Port) (ps : List Port), u.script = p :: ps →
        (b = false ∨ p.cmdValid = false → u.hostTurn b = { u with port := p, script := ps }) ∧
        (b = true → p.cmdValid = true →
          u.hostTurn b =
            { u with
              port := { p with cmdWord := u.port.cmdWord, cmdData := u.port.cmdData }
              script := ps }))) ∧
    (∀ (b : Bool) (f : Fault), afterStep b (.fault f) = .fault f) ∧
    (∀ (b : Bool) (r : Refusal), afterStep b (.refused r) = .refused r)

/-- An instruction placed for the next step is the one the next step runs (the model's convention, log 14). -/
def Obligations.PlacedInstructionRunsNext : Prop :=
  ∀ (s : State) (nbits w : Nat) (i : Instr), s.cfg.clockPin ≠ s.cfg.dataPin → decodeTableWord nbits w = some i →
    step (s.withFetchWord nbits w) =
      afterStep (s.withFetchWord nbits w).pending (exec i (s.withFetchWord nbits w)) ∧
    ∃ t, step (s.withFetchWord nbits w) = .next t

/-- R105: the next-state function, for a step that is not a fault or refusal of the model: where FSM and the position
go from every code, under reset, with and without a command. -/
def Obligations.NextStateTable : Prop :=
  ∀ s t : State, step s = .next t →
    (s.port.rst = true → t.fsm = 0b000#3 ∧ t.bytePos = 0 ∧ t.bitPos = 0#3) ∧
    (s.port.rst = false → s.faultQ = false →
      (s.fsm = 0b000#3 → s.port.cmdValid = true → t.bytePos = 0 ∧ t.bitPos = 0#3 ∧
        (0 < t.lenQ → t.fsm = 0b001#3) ∧ (t.lenQ = 0 → t.fsm = 0b101#3)) ∧
      (s.fsm = 0b000#3 → s.port.cmdValid = false →
        t.fsm = 0b000#3 ∧ t.bytePos = s.bytePos ∧ t.bitPos = s.bitPos) ∧
      (s.fsm = 0b001#3 → t.fsm = 0b010#3 ∧ t.bytePos = s.bytePos ∧ t.bitPos = s.bitPos) ∧
      (s.fsm = 0b010#3 → t.fsm = 0b011#3 ∧ t.bytePos = s.bytePos ∧ t.bitPos = s.bitPos) ∧
      (s.fsm = 0b011#3 → t.fsm = 0b100#3 ∧ t.bytePos = s.bytePos ∧ t.bitPos = s.bitPos) ∧
      (s.fsm = 0b100#3 → s.bitPos.toNat < 7 →
        t.fsm = 0b001#3 ∧ t.bytePos = s.bytePos ∧ t.bitPos.toNat = s.bitPos.toNat + 1) ∧
      (s.fsm = 0b100#3 → s.bitPos.toNat = 7 → s.bytePos + 1 < s.lenQ →
        t.fsm = 0b001#3 ∧ t.bytePos = s.bytePos + 1 ∧ t.bitPos = 0#3) ∧
      (s.fsm = 0b100#3 → s.bitPos.toNat = 7 → s.lenQ ≤ s.bytePos + 1 →
        t.fsm = 0b101#3 ∧ t.bytePos = s.bytePos + 1 ∧ t.bitPos = 0#3) ∧
      (s.fsm = 0b101#3 → t.fsm = 0b110#3 ∧ t.bytePos = s.bytePos ∧ t.bitPos = s.bitPos) ∧
      (s.fsm = 0b110#3 → t.fsm = 0b000#3 ∧ t.bytePos = s.bytePos ∧ t.bitPos = s.bitPos) ∧
      (s.fsm = 0b111#3 → t.faultQ = true ∧ t.bytePos = s.bytePos ∧ t.bitPos = s.bitPos))

/-- R122 in the model: reset comes before everything and lets nothing else happen; then a fault, with no step (the
block unchanged, log 8); then the micro-step. A command presented in the `S_FDATA` step is not accepted in it; the
next step can accept it. -/
def Obligations.PriorityOfSimultaneousEvents : Prop :=
  ∀ s : State, s.cfg.clockPin ≠ s.cfg.dataPin →
    (s.port.rst = true → step s = .next ((resetTransition s).hostTurn s.pending)) ∧
    (s.port.rst = false → s.faultQ = true → step s = .next (s.hostTurn s.pending)) ∧
    (s.port.rst = false → s.faultQ = false → s.fsm = 0b110#3 →
      s.accepts = false ∧
      ∃ t, step s = .next t ∧ t.fsm = 0b000#3 ∧ t.trace = s.trace ++ [.write .data false] ∧
        (t.port.rst = false → t.cmdReady = true))

/-- Where the block has no step (R94) the model's step leaves the block as it is and only the host's turn passes
(log 8); `IDLE` with no command and a fault are exactly these states. -/
def Obligations.NoStepLeavesTheBlock : Prop :=
  ∀ s : State, s.cfg.clockPin ≠ s.cfg.dataPin →
    (s.hasStep = false ↔
      s.port.rst = false ∧ (s.faultQ = true ∨ (s.fsm = 0b000#3 ∧ s.port.cmdValid = false))) ∧
    (s.hasStep = false → ∃ t, step s = .next t ∧ s.sameBlock t ∧ t = s.hostTurn s.pending)

/-- The two refusals at the boundary, and that nothing else is refused (R86); that a payload too long is refused at
its acceptance and that the step checks the pins is the model's choice (log 5, log 15). -/
def Obligations.RefusalsAtTheBoundary : Prop :=
  (∀ s : State, s.cfg.clockPin = s.cfg.dataPin → step s = .refused .samePin) ∧
  (∀ (s : State) (cw : ControlWord) (data : List Byte) (b : Nat),
    s.fsm = 0b000#3 → s.faultQ = false → s.port.rst = false → s.cfg.lenBits = some b → 2 ^ b ≤ data.length →
    exec (.transmit cw data) s = .refused .lengthTooLarge) ∧
  (∀ (s : State) (r : Refusal), step s = .refused r →
    (r = .samePin ∧ s.cfg.clockPin = s.cfg.dataPin) ∨
    (r = .lengthTooLarge ∧ s.accepts = true ∧ s.port.cmdWord.getLsbD 32 = false ∧
      ∃ b, s.cfg.lenBits = some b ∧ 2 ^ b ≤ s.port.cmdData.length)) ∧
  (∀ (i : Instr) (s : State) (r : Refusal), exec i s = .refused r →
    r = .lengthTooLarge ∧ (i = .idle ∨ i.wellFormed s.cfg = false))

/-- R116: no exception in any reachable state. In every state that meets the invariant a step neither stops with a
fault nor sets `FAULT_Q`, whatever the command, the payload, the control word and the length; and neither happens in
a run of any length from reset, under any configuration and whatever the host drives. -/
def Obligations.NoExceptionInReachableStates : Prop :=
  (∀ s : State, s.Inv →
    (∀ f : Fault, step s ≠ .fault f) ∧ (∀ t : State, step s = .next t → t.faultQ = false)) ∧
  (∀ (cfg : Config) (port : Port) (script : List Port) (n : Nat),
    (∀ f : Fault,
      Host.Core.run Sys2Proof.core n { State.reset with cfg := cfg, port := port, script := script } ≠ .fault f) ∧
    (∀ t : State,
      Host.Core.run Sys2Proof.core n { State.reset with cfg := cfg, port := port, script := script } = .next t →
      t.faultQ = false ∧ t.fsm ≠ 0b111#3))

/-- The only stop of the model beyond the refusals (log 13): a step or exec faults only in the payload read of
`S_DPAY`, from the buffer, when none is bound or the index is not one of its bytes. -/
def Obligations.FaultOnlyOnUnreadablePayload : Prop :=
  (∀ (s : State) (f : Fault), step s = .fault f →
    s.fsm = 0b001#3 ∧ s.srcQ = .buffer ∧ (s.lenQ ≤ s.bytePos ∨ s.byteAt s.bytePos = none)) ∧
  (∀ (i : Instr) (s : State) (f : Fault), exec i s = .fault f ↔
    i = .sDpay ∧ s.srcQ = .buffer ∧
      ((f = .payloadUnbound ∧ s.pb = none) ∨
       (f = .payloadOutOfRange ∧ s.pb ≠ none ∧ (s.lenQ ≤ s.bytePos ∨ s.byteAt s.bytePos = none))))

/-! ### The host commands (40_commands.md) -/

/-- The acceptance of `TRANSMIT`: every register it writes, and that it writes nothing else. The bound payload reads,
at each index, as the byte of the list. -/
def Obligations.TransmitAcceptance : Prop :=
  ∀ (cw : ControlWord) (data : List Byte) (s : State),
    s.fsm = 0b000#3 → s.faultQ = false → s.port.rst = false → s.cfg.lengthFits data.length = true →
    exec (.transmit cw data) s = .next
      { s with
        cwQ := cw
        pb := some (Memory.bind data)
        lenQ := data.length
        srcQ := .buffer
        bytePos := 0
        bitPos := 0#3
        fsm := if 0 < data.length then 0b001#3 else 0b101#3
        trace := s.trace ++ [.accept .transmit] } ∧
    ∀ i : Nat, Memory.read (Memory.bind data) i = data[i]?

/-- The acceptance of `DISABLE` in both modes: every register it writes, and that it writes nothing else; that the
bound payload stays is the model's reading (log 12). -/
def Obligations.DisableAcceptance : Prop :=
  ∀ s : State, s.fsm = 0b000#3 → s.faultQ = false → s.port.rst = false →
    (s.cfg.disableMode = .wordCycle → exec .disable s = .next
      { s with
        cwQ := 0x0000FAB0#32
        srcQ := .virtual
        lenQ := 4
        bytePos := 0
        bitPos := 0#3
        fsm := 0b001#3
        trace := s.trace ++ [.accept .disable] }) ∧
    (s.cfg.disableMode = .noPulse → exec .disable s = .next
      { s with
        cwQ := 0x0000FAB0#32
        srcQ := .virtual
        lenQ := 0
        bytePos := 0
        bitPos := 0#3
        fsm := 0b101#3
        trace := s.trace ++ [.accept .disable] })

/-- The `IDLE` micro-step: with no command presented it changes nothing; with one, it is the acceptance of the
command that bit 32 selects, and `BUSY` becomes 1. -/
def Obligations.IdleAcceptsThePresentedCommand : Prop :=
  ∀ s : State,
    (s.port.cmdValid = false → exec .idle s = .next s) ∧
    (s.port.cmdValid = true → s.port.cmdWord.getLsbD 32 = false →
      exec .idle s = exec (.transmit (s.port.cmdWord.extractLsb' 0 32) s.port.cmdData) s) ∧
    (s.port.cmdValid = true → s.port.cmdWord.getLsbD 32 = true → exec .idle s = exec .disable s) ∧
    (s.fsm = 0b000#3 → s.faultQ = false → s.port.rst = false → s.port.cmdValid = true →
      s.port.cmdWord.getLsbD 32 = true ∨ s.cfg.lengthFits s.port.cmdData.length = true →
      ∃ t, exec .idle s = .next t ∧ t.busy = true ∧ t.clockQ = s.clockQ ∧ t.dataQ = s.dataQ)

/-- A command on a port that is not ready has no effect on any state (R85). -/
def Obligations.HeldCommandHasNoEffect : Prop :=
  ∀ (s : State) (cw : ControlWord) (data : List Byte),
    s.fsm ≠ 0b000#3 ∨ s.faultQ = true ∨ s.port.rst = true →
    exec (.transmit cw data) s = .next s ∧ exec .disable s = .next s ∧ exec .idle s = .next s

/-- R85: a presented command that is not accepted has no effect (the step is that of the block without it) and is not
dropped: in every state the host that goes on presenting a command after such a step presents the same word and
payload. Held over a transmission in progress, it finds the port not ready in every step of the transmission, and
ready, with the command unchanged, right after it, where it is accepted. -/
def Obligations.HeldCommandIsAcceptedWhenReady : Prop :=
  (∀ s t : State, s.port.cmdValid = true → s.cmdReady = false → step s = .next t →
    ∃ t', step { s with port := { s.port with cmdValid := false } } = .next t' ∧ t.sameBlock t') ∧
  (∀ s t : State, s.port.cmdValid = true → s.cmdReady = false → step s = .next t → t.port.cmdValid = true →
    t.port.cmdWord = s.port.cmdWord ∧ t.port.cmdData = s.port.cmdData) ∧
  (∀ s : State, s.Inv → s.cfg.clockPin ≠ s.cfg.dataPin → s.port.cmdValid = true → s.port.rst = false →
    s.PortHeld (remainingSteps s) →
    (∀ n, n < remainingSteps s →
      ∃ u, Host.Core.run Sys2Proof.core n s = .next u ∧ u.cmdReady = false ∧ u.port = s.port) ∧
    ∃ u, Host.Core.run Sys2Proof.core (remainingSteps s) s = .next u ∧ u.accepts = true ∧ u.port = s.port ∧
      step u = afterStep false (exec (decode (.command s.port.cmdWord s.port.cmdData)) u))

/-- The block does not look at the command port outside `IDLE` (R63, R85): two states that differ only in the command
the host presents step to states that differ only on the host's side. -/
def Obligations.BusyBlockIgnoresTheCommandPort : Prop :=
  ∀ (s t : State) (p : Port), s.fsm ≠ 0b000#3 ∨ s.faultQ = true ∨ s.port.rst = true → p.rst = s.port.rst →
    step s = .next t → ∃ t', step { s with port := p } = .next t' ∧ t.sameBlock t'

/-- What the commands and `IDLE` leave unchanged: the lines, the fault flag, the configuration, the host's side; for
`DISABLE`, and for `IDLE` with no command or with a `DISABLE`, every byte of the payload space. An accepted
`TRANSMIT` replaces the payload space by its own bytes. -/
def Obligations.CommandFrame : Prop :=
  ∀ (i : Instr) (s t : State), exec i s = .next t →
    (i = .disable ∨ i = .idle ∨ ∃ cw data, i = .transmit cw data) →
    t.cfg = s.cfg ∧ t.clockQ = s.clockQ ∧ t.dataQ = s.dataQ ∧ t.faultQ = s.faultQ ∧ t.port = s.port ∧
    t.script = s.script ∧ t.freeIdx = s.freeIdx ∧
    (i = .disable ∨ (i = .idle ∧ (s.port.cmdValid = false ∨ s.port.cmdWord.getLsbD 32 = true)) →
      ∀ a, t.byteAt a = s.byteAt a) ∧
    (∀ cw data, i = .transmit cw data →
      (s.cmdReady = true → ∀ a, t.byteAt a = data[a]?) ∧ (s.cmdReady = false → ∀ a, t.byteAt a = s.byteAt a)) ∧
    (i = .idle → s.port.cmdValid = false → t = s)

/-! ### The micro-steps (41_sequencer.md section 2) -/

/-- R97, `S_DPAY`: from the buffer or the virtual byte, DATA takes bit `7 - BIT_POS` and the sequencer goes to
`S_CRISE`; in a transmission the read is in range and CLOCK is 0. -/
def Obligations.PayloadStepWritesThePayloadBit : Prop :=
  (∀ (s : State) (m : Memory) (b : Byte), s.srcQ = .buffer → s.pb = some m → s.bytePos < s.lenQ →
    Memory.read m s.bytePos = some b →
    exec .sDpay s = .next
      { s with
        dataQ := b.getLsbD (7 - s.bitPos.toNat)
        trace := s.trace ++ [.write .data (b.getLsbD (7 - s.bitPos.toNat))]
        fsm := 0b010#3 }) ∧
  (∀ s : State, s.srcQ = .virtual →
    exec .sDpay s = .next
      { s with
        dataQ := s.cfg.virtualByte.getLsbD (7 - s.bitPos.toNat)
        trace := s.trace ++ [.write .data (s.cfg.virtualByte.getLsbD (7 - s.bitPos.toNat))]
        fsm := 0b010#3 }) ∧
  (∀ s : State, s.Inv → s.fsm = 0b001#3 →
    s.clockQ = false ∧ s.bytePos < s.lenQ ∧
    (s.srcQ = .buffer → ∃ m b, s.pb = some m ∧ Memory.read m s.bytePos = some b))

/-- R98, `S_CRISE`: CLOCK takes 1 and the sequencer goes to `S_DCTL`; in a transmission CLOCK was 0, so the write is
a rising edge. -/
def Obligations.ClockRiseStepRaisesClock : Prop :=
  ∀ s : State,
    exec .sCrise s = .next { s with clockQ := true, trace := s.trace ++ [.write .clock true], fsm := 0b011#3 } ∧
    (s.Inv → s.fsm = 0b010#3 → s.clockQ = false)

/-- R99, `S_DCTL`: DATA takes the indexed bit of the control word and the sequencer goes to `S_CFALL`; in a
transmission CLOCK is 1 here, and the write before it was the rising edge. -/
def Obligations.ControlStepWritesTheControlBit : Prop :=
  ∀ s : State,
    exec .sDctl s = .next
      { s with
        dataQ := s.cwQ.getLsbD (31 - (8 * (s.bytePos % 4) + s.bitPos.toNat))
        trace := s.trace ++ [.write .data (s.cwQ.getLsbD (31 - (8 * (s.bytePos % 4) + s.bitPos.toNat)))]
        fsm := 0b100#3 } ∧
    8 * (s.bytePos % 4) + s.bitPos.toNat ≤ 31 ∧
    (s.Inv → s.fsm = 0b011#3 → s.clockQ = true) ∧
    (∀ r : State, step r = .next s → r.faultQ = false → r.fsm ≠ 0b011#3 → s.fsm = 0b011#3 →
      s.trace = r.trace ++ [.write .clock true])

/-- R100, `S_CFALL`: CLOCK takes 0 and the position advances, by bit, to the next byte, or to the idle writes; in a
transmission CLOCK was 1, so the write is a falling edge. -/
def Obligations.ClockFallStepAdvancesThePosition : Prop :=
  ∀ s : State,
    (s.bitPos.toNat < 7 → exec .sCfall s = .next
      { s with
        clockQ := false
        trace := s.trace ++ [.write .clock false]
        bitPos := BitVec.ofNat 3 (s.bitPos.toNat + 1)
        fsm := 0b001#3 }) ∧
    (s.bitPos.toNat = 7 → exec .sCfall s = .next
      { s with
        clockQ := false
        trace := s.trace ++ [.write .clock false]
        bitPos := 0#3
        bytePos := s.bytePos + 1
        fsm := if s.bytePos + 1 < s.lenQ then 0b001#3 else 0b101#3 }) ∧
    (s.Inv → s.fsm = 0b100#3 →
      s.clockQ = true ∧ (s.bitPos.toNat = 7 → ¬ s.bytePos + 1 < s.lenQ → s.bytePos + 1 = s.lenQ))

/-- R101, `S_FCLK`: CLOCK takes 0 and the sequencer goes to `S_FDATA`; in a transmission CLOCK is already 0, so the
write makes no edge. -/
def Obligations.FinalClockStepForcesClockLow : Prop :=
  ∀ s : State,
    exec .sFclk s = .next { s with clockQ := false, trace := s.trace ++ [.write .clock false], fsm := 0b110#3 } ∧
    (s.Inv → s.fsm = 0b101#3 → s.clockQ = false)

/-- R102, `S_FDATA`: DATA takes 0, the sequencer returns to `IDLE` and `BUSY` becomes 0; in a transmission CLOCK is
0 here, so the write is not sampled, and DATA holds the last control bit sent (0 if none was), so the write changes
it only when that bit was 1. -/
def Obligations.FinalDataStepForcesDataLow : Prop :=
  ∀ s : State,
    (∃ t, exec .sFdata s = .next t ∧ t.busy = false ∧
      t = { s with dataQ := false, trace := s.trace ++ [.write .data false], fsm := 0b000#3 }) ∧
    (s.Inv → s.fsm = 0b110#3 →
      s.clockQ = false ∧
      (0 < s.lenQ → s.dataQ = s.cwQ.getLsbD (31 - (8 * ((s.lenQ - 1) % 4) + 7))) ∧
      (s.lenQ = 0 → s.dataQ = false))

/-- The reserved code raises `Fault(ReservedState)`, cause 1: `FAULT_Q` takes 1 and nothing else changes (R103,
R117). The block then has no step and accepts nothing until reset: every step without reset leaves it as it is
(log 8), and a reset clears it. -/
def Obligations.ReservedCodeFaultsUntilReset : Prop :=
  ∀ s : State,
    exec .reservedFsm s = .next { s with faultQ := true } ∧
    faultCause .reservedState = 1 ∧
    (s.faultQ = true → s.cmdReady = false ∧ s.final = false ∧
      (∀ t, s.port.rst = false → step s = .next t → s.sameBlock t ∧ t.faultQ = true) ∧
      (∀ t, s.port.rst = true → step s = .next t → t.faultQ = false ∧ t.fsm = 0b000#3))

/-- What the micro-steps leave unchanged: what the command latched, the payload space, the configuration and the
host's side; each line but the one the step writes; the position outside `S_CFALL`; the fault flag outside the
reserved code, which changes nothing else. -/
def Obligations.MicroStepFrame : Prop :=
  ∀ (i : Instr) (s t : State), exec i s = .next t →
    i ∈ [Instr.sDpay, .sCrise, .sDctl, .sCfall, .sFclk, .sFdata, .reservedFsm] →
    t.cfg = s.cfg ∧ t.cwQ = s.cwQ ∧ t.lenQ = s.lenQ ∧ t.srcQ = s.srcQ ∧ t.pb = s.pb ∧
    (∀ a, t.byteAt a = s.byteAt a) ∧ t.port = s.port ∧ t.script = s.script ∧ t.freeIdx = s.freeIdx ∧
    (i ∈ [Instr.sDpay, .sDctl, .sFdata, .reservedFsm] → t.clockQ = s.clockQ) ∧
    (i ∈ [Instr.sCrise, .sCfall, .sFclk, .reservedFsm] → t.dataQ = s.dataQ) ∧
    (i ≠ .sCfall → t.bytePos = s.bytePos ∧ t.bitPos = s.bitPos) ∧
    (i ≠ .reservedFsm → t.faultQ = s.faultQ) ∧
    (i = .reservedFsm → t.fsm = s.fsm ∧ t.trace = s.trace)

/-! ### Reset (70_reset_and_hazards.md section 1) -/

/-- R134: the reset transition sets every element to its reset value and appends `Reset`; it is no line write; after
it the block is idle, not busy, and ready once `rst` is 0. `CW_Q` is left unspecified: nothing is said of it. -/
def Obligations.ResetTransitionSetsEveryElement : Prop :=
  ∀ s : State, s.cfg.clockPin ≠ s.cfg.dataPin → s.port.rst = true →
    ∃ t, step s = .next t ∧ t.clockQ = false ∧ t.dataQ = false ∧ t.fsm = 0b000#3 ∧ t.faultQ = false ∧
      t.bytePos = 0 ∧ t.bitPos = 0#3 ∧ t.lenQ = 0 ∧ t.srcQ = .buffer ∧ t.pb = none ∧
      t.trace = s.trace ++ [.reset] ∧ t.busy = false ∧ (t.port.rst = false → t.cmdReady = true) ∧ t.cfg = s.cfg

/-- R136: the model starts in the state of the reset rule, with the trace `[Reset]`. -/
def Obligations.ModelStartsInTheResetState : Prop :=
  State.reset.clockQ = false ∧ State.reset.dataQ = false ∧ State.reset.fsm = 0b000#3 ∧
  State.reset.faultQ = false ∧ State.reset.bytePos = 0 ∧ State.reset.bitPos = 0#3 ∧ State.reset.lenQ = 0 ∧
  State.reset.srcQ = .buffer ∧ State.reset.pb = none ∧ State.reset.trace = [.reset]

/-- R135: a reset aborts the transmission; both lines go to 0 with no line write. A receiver sees a falling edge
exactly when CLOCK was 1, and its sample is then either the DATA level before the reset or 0, both admitted; it sees
no rising edge. -/
def Obligations.ResetAbortsATransmission : Prop :=
  ∀ s t : State, step s = .next t → s.port.rst = true →
    lineAfter .clock false s.trace = s.clockQ → lineAfter .data false s.trace = s.dataQ →
    t.clockQ = false ∧ t.dataQ = false ∧ t.fsm = 0b000#3 ∧ t.trace = s.trace ++ [.reset] ∧
    rise t.trace = rise s.trace ∧
    (s.clockQ = false → fallSamples t.trace = fallSamples s.trace) ∧
    (s.clockQ = true → ∀ bits : List Level, admits (fallSamples s.trace) bits = true → ∀ b : Level,
      (admits (fallSamples t.trace) (bits ++ [b]) = true ↔ b = s.dataQ ∨ b = false))

/-! ### Invariants of every step -/

/-- The reset state meets the invariant; no payload is bound, so its memory is in the canonical form of log 13 (DESIGN
CHOICE); and its configuration, whose pins are log 3's and whose step cycles log 6's (DESIGN CHOICE), is legal. -/
def Obligations.ResetStateMeetsTheInvariant : Prop :=
  State.reset.Inv ∧ State.reset.MemoryCanonical ∧ State.reset.cfg.wellFormed = true

/-- Every step keeps the invariant, whatever the host presents. -/
def Obligations.StepKeepsTheInvariant : Prop :=
  ∀ s t : State, s.Inv → step s = .next t → t.Inv

/-- R41: whenever `FSM = IDLE` both lines are 0: at reset, and after every step. -/
def Obligations.IdleLinesAreLow : Prop :=
  (State.reset.fsm = 0b000#3 ∧ State.reset.clockQ = false ∧ State.reset.dataQ = false) ∧
  (∀ s t : State, s.Inv → step s = .next t → t.fsm = 0b000#3 → t.clockQ = false ∧ t.dataQ = false)

/-- R42: CLOCK is 1 exactly in `S_DCTL` and `S_CFALL`, so every `S_CRISE` write changes CLOCK from 0 to 1 and every
`S_CFALL` write from 1 to 0. -/
def Obligations.ClockHighExactlyBetweenTheEdges : Prop :=
  (∀ s t : State, s.Inv → step s = .next t → (t.clockQ = true ↔ t.fsm = 0b011#3 ∨ t.fsm = 0b100#3)) ∧
  (∀ s t : State, s.Inv → step s = .next t → s.port.rst = false →
    (s.clockQ = false ∧ t.clockQ = true ↔ s.fsm = 0b010#3) ∧
    (s.clockQ = true ∧ t.clockQ = false ↔ s.fsm = 0b100#3))

/-- R39: a receiver sees DATA only at CLOCK edges: a DATA write alone adds no sample. The rising edge finds on DATA
the payload bit that `S_DPAY` wrote one step before, and the falling edge the control bit that `S_DCTL` wrote, which
stays there until the next `S_DPAY` (or the closing write); no step but those that write DATA changes it. -/
def Obligations.EdgesSampleTheBits : Prop :=
  (∀ (events : List Event) (v : Level),
    rise (events ++ [.write .data v]) = rise events ∧ fallSamples (events ++ [.write .data v]) = fallSamples events) ∧
  (∀ s t : State, s.Inv → step s = .next t → s.port.rst = false →
    (s.fsm = 0b010#3 → ∃ b, payloadByte s = .ok b ∧ s.dataQ = payloadBit b s.bitPos ∧ t.dataQ = s.dataQ) ∧
    (s.fsm = 0b100#3 → s.dataQ = controlBit s.cwQ s.bytePos s.bitPos ∧ t.dataQ = s.dataQ) ∧
    (s.fsm ≠ 0b001#3 → s.fsm ≠ 0b011#3 → s.fsm ≠ 0b110#3 → t.dataQ = s.dataQ))

/-- The position stays in range: inside the byte loop `BYTE_POS < LEN_Q`, outside it `BYTE_POS = LEN_Q`; `BYTE_POS`
moves by one only when `BIT_POS` wraps from 7 to 0; the control word restarts every four byte positions. -/
def Obligations.PositionStaysInRange : Prop :=
  (∀ s t : State, s.Inv → step s = .next t →
    t.bytePos ≤ t.lenQ ∧ (pulsing t.fsm → t.bytePos < t.lenQ) ∧ (¬ pulsing t.fsm → t.bytePos = t.lenQ) ∧
    (s.port.rst = false → s.accepts = false →
      t.bytePos = s.bytePos ∨ (t.bytePos = s.bytePos + 1 ∧ s.bitPos = 7#3 ∧ t.bitPos = 0#3))) ∧
  (∀ (w : ControlWord) (k : Nat) (p : BitPos), controlBit w (k + 4) p = controlBit w k p)

/-- Every step keeps the payload memory in its canonical form. -/
def Obligations.StepKeepsTheMemoryCanonical : Prop :=
  ∀ s t : State, s.MemoryCanonical → step s = .next t → t.MemoryCanonical

/-- No step changes the configuration, which is fixed when the block is built. -/
def Obligations.StepKeepsTheConfiguration : Prop :=
  ∀ s t : State, step s = .next t → t.cfg = s.cfg

/-- What a command latched changes only at an acceptance or a reset (R23 to R26). -/
def Obligations.LatchedOperandsChangeOnlyAtAcceptance : Prop :=
  ∀ s t : State, step s = .next t → s.port.rst = false → s.accepts = false →
    t.cwQ = s.cwQ ∧ t.lenQ = s.lenQ ∧ t.srcQ = s.srcQ ∧ t.pb = s.pb ∧ ∀ a, t.byteAt a = s.byteAt a

/-- R20: the writers of `CLOCK_Q` are `S_CRISE`, `S_CFALL`, `S_FCLK` and reset, each with its level; every other step
holds it; the pin shows it. -/
def Obligations.ClockLineWriters : Prop :=
  ∀ s t : State, step s = .next t →
    t.sclk = t.clockQ ∧
    t.clockQ =
      if s.port.rst then false
      else if s.faultQ then s.clockQ
      else if s.fsm = 0b010#3 then true
      else if s.fsm = 0b100#3 ∨ s.fsm = 0b101#3 then false
      else s.clockQ

/-- R21: the writers of `DATA_Q` are `S_DPAY` (the payload bit), `S_DCTL` (the control bit), `S_FDATA` and reset;
every other step holds it; the pin shows it. -/
def Obligations.DataLineWriters : Prop :=
  ∀ s t : State, step s = .next t →
    t.sdata = t.dataQ ∧
    (s.port.rst = true → t.dataQ = false) ∧
    (s.port.rst = false → s.faultQ = true → t.dataQ = s.dataQ) ∧
    (s.port.rst = false → s.faultQ = false →
      (s.fsm = 0b001#3 → ∃ b, payloadByte s = .ok b ∧ t.dataQ = payloadBit b s.bitPos) ∧
      (s.fsm = 0b011#3 → t.dataQ = controlBit s.cwQ s.bytePos s.bitPos) ∧
      (s.fsm = 0b110#3 → t.dataQ = false) ∧
      (s.fsm ≠ 0b001#3 → s.fsm ≠ 0b011#3 → s.fsm ≠ 0b110#3 → t.dataQ = s.dataQ))

/-- R46: a line write sets the register of its line and appends its event; and no decision of the block reads a line
back: two states that differ only in the line levels step to states that differ only in the line levels. -/
def Obligations.LineWriteAndNoReadBack : Prop :=
  (∀ (s : State) (v : Level),
    s.lineWrite .clock v = { s with clockQ := v, trace := s.trace ++ [.write .clock v] } ∧
    s.lineWrite .data v = { s with dataQ := v, trace := s.trace ++ [.write .data v] }) ∧
  (∀ (s t : State) (c d : Level), step s = .next t →
    ∃ t', step { s with clockQ := c, dataQ := d } = .next t' ∧
      t' = { t with clockQ := t'.clockQ, dataQ := t'.dataQ })

/-- R55: a step appends at most one event, a line changes only by the write event of its own step, and only a reset
changes both lines in one step. -/
def Obligations.EachStepIsOneEvent : Prop :=
  ∀ s t : State, step s = .next t →
    (t.trace = s.trace ∨ ∃ e, t.trace = s.trace ++ [e]) ∧
    (t.clockQ ≠ s.clockQ → s.port.rst = false → t.trace = s.trace ++ [.write .clock t.clockQ]) ∧
    (t.dataQ ≠ s.dataQ → s.port.rst = false → t.trace = s.trace ++ [.write .data t.dataQ]) ∧
    (t.clockQ ≠ s.clockQ → t.dataQ ≠ s.dataQ → s.port.rst = true)

/-- The line registers always hold what the trace says was last put on the lines: at reset, and kept by every step. -/
def Obligations.LinesAgreeWithTheTrace : Prop :=
  (lineAfter .clock false State.reset.trace = State.reset.clockQ ∧
    lineAfter .data false State.reset.trace = State.reset.dataQ) ∧
  (∀ s t : State, step s = .next t →
    lineAfter .clock false s.trace = s.clockQ → lineAfter .data false s.trace = s.dataQ →
    lineAfter .clock false t.trace = t.clockQ ∧ lineAfter .data false t.trace = t.dataQ)

/-- `FAULT_Q` is set only by the reserved code and cleared only by reset; while it is 1 the block accepts no command
and performs no step (R35), which in the model leaves it as it is (log 8). -/
def Obligations.FaultFlagIsSticky : Prop :=
  ∀ s t : State, step s = .next t →
    (t.faultQ = true ↔ s.port.rst = false ∧ (s.faultQ = true ∨ s.fsm = 0b111#3)) ∧
    (s.faultQ = true → s.accepts = false) ∧
    (s.faultQ = true → s.port.rst = false → s.hasStep = false ∧ s.sameBlock t)

/-- R76: no transition and no reset leads to the reserved code; and the step that finds it raises the fault, in every
state with two distinct pins and no reset. -/
def Obligations.ReservedCodeIsNeverEntered : Prop :=
  State.reset.fsm ≠ 0b111#3 ∧
  (∀ s t : State, step s = .next t → t.fsm = 0b111#3 → s.fsm = 0b111#3 ∧ s.port.rst = false) ∧
  (∀ s : State, s.cfg.clockPin ≠ s.cfg.dataPin → s.fsm = 0b111#3 → s.port.rst = false →
    ∃ t, step s = .next t ∧ t.faultQ = true ∧ t.trace = s.trace ∧ t.clockQ = s.clockQ ∧ t.dataQ = s.dataQ)

/-! ### Whole transmissions (41_sequencer.md section 4) -/

/-- R87: `TRANSMIT` from acceptance to the end, when no reset intervenes: the acceptance writes, `BUSY` in every step
between, and after `32 N + 3` steps exactly the acceptance marker and the frame of the payload and the control word
on the trace, the block idle, both lines 0. -/
def Obligations.TransmitSendsItsFrame : Prop :=
  ∀ (s : State) (cw : ControlWord) (data : List Byte) (n : Nat),
    s.cfg.clockPin ≠ s.cfg.dataPin → s.fsm = 0b000#3 → s.faultQ = false → s.port.cmdValid = true →
    s.port.cmdWord.getLsbD 32 = false → s.port.cmdWord.extractLsb' 0 32 = cw → s.port.cmdData = data →
    data.length = n → s.cfg.lengthFits n = true → s.NoReset (1 + (32 * n + 2)) →
    (∃ u, Host.Core.run Sys2Proof.core 1 s = .next u ∧
      u.cwQ = cw ∧ u.pb = some (Memory.bind data) ∧ u.lenQ = n ∧ u.srcQ = .buffer ∧ u.bytePos = 0 ∧
      u.bitPos = 0#3 ∧ u.fsm = (if 0 < n then 0b001#3 else 0b101#3) ∧
      u.trace = s.trace ++ [.accept .transmit] ∧ u.clockQ = s.clockQ ∧ u.dataQ = s.dataQ) ∧
    (∀ k, 0 < k → k < 1 + (32 * n + 2) →
      ∃ u, Host.Core.run Sys2Proof.core k s = .next u ∧ u.busy = true ∧ u.faultQ = false) ∧
    (∃ t, Host.Core.run Sys2Proof.core (1 + (32 * n + 2)) s = .next t ∧
      t.trace = s.trace ++ [.accept .transmit] ++ frame data cw ∧
      t.fsm = 0b000#3 ∧ t.busy = false ∧ t.clockQ = false ∧ t.dataQ = false ∧ t.bytePos = n ∧ t.bitPos = 0#3 ∧
      t.cwQ = cw ∧ t.faultQ = false)

/-- R88: `DISABLE` from acceptance to the end, in both modes, when no reset intervenes: no byte positions in
`NO_PULSE`, four of the virtual byte in `WORD_CYCLE`, with the control word 0x0000FAB0. The acceptance binds no
payload: `PB` is as it was or unbound, which of the two is not claimed. With `LEN_BITS` of 2 or less a `WORD_CYCLE`
block still counts four byte positions, which is the model's choice (log 5). -/
def Obligations.DisableSendsItsFrame : Prop :=
  ∀ (s : State) (n : Nat),
    s.cfg.clockPin ≠ s.cfg.dataPin → s.fsm = 0b000#3 → s.faultQ = false → s.port.cmdValid = true →
    s.port.cmdWord.getLsbD 32 = true → n = (if s.cfg.disableMode = .wordCycle then 4 else 0) →
    s.NoReset (1 + (32 * n + 2)) →
    (∃ u, Host.Core.run Sys2Proof.core 1 s = .next u ∧
      u.cwQ = 0x0000FAB0#32 ∧ (u.pb = s.pb ∨ u.pb = none) ∧ u.srcQ = .virtual ∧ u.lenQ = n ∧ u.bytePos = 0 ∧
      u.bitPos = 0#3 ∧ u.fsm = (if s.cfg.disableMode = .wordCycle then 0b001#3 else 0b101#3) ∧
      u.trace = s.trace ++ [.accept .disable] ∧ u.clockQ = s.clockQ ∧ u.dataQ = s.dataQ) ∧
    (∀ k, 0 < k → k < 1 + (32 * n + 2) →
      ∃ u, Host.Core.run Sys2Proof.core k s = .next u ∧ u.busy = true ∧ u.faultQ = false) ∧
    (∃ t, Host.Core.run Sys2Proof.core (1 + (32 * n + 2)) s = .next t ∧
      t.trace = s.trace ++ [.accept .disable] ++ frame (List.replicate n s.cfg.virtualByte) 0x0000FAB0#32 ∧
      t.fsm = 0b000#3 ∧ t.busy = false ∧ t.clockQ = false ∧ t.dataQ = false ∧ t.bytePos = n ∧ t.faultQ = false)

/-- R89: (a) in `NO_PULSE` a `DISABLE` and `TRANSMIT 0x0000FAB0, []` append the same line writes `ws` after their
markers; (b) in `WORD_CYCLE` with a zero virtual byte so do `DISABLE` and `TRANSMIT 0x0000FAB0` of four zero bytes;
(c) in both modes the writes of a `DISABLE` do not depend on what came before and leave both lines 0. -/
def Obligations.DisableMatchesTransmit : Prop :=
  ∀ (cfg : Config) (zeros : List Byte),
    cfg.clockPin ≠ cfg.dataPin →
    (cfg.disableMode = .noPulse ∧ zeros = [] ∨
      cfg.disableMode = .wordCycle ∧ cfg.virtualByte = 0x00#8 ∧ zeros = [0x00#8, 0x00#8, 0x00#8, 0x00#8] ∧
        cfg.lengthFits 4 = true) →
    ∃ ws : List Event, (∀ e ∈ ws, ∃ l v, e = Event.write l v) ∧
      ∀ s : State, s.cfg = cfg → s.fsm = 0b000#3 → s.faultQ = false → s.port.cmdValid = true →
        s.NoReset (1 + (32 * zeros.length + 2)) →
        (s.port.cmdWord.getLsbD 32 = true →
          ∃ t, Host.Core.run Sys2Proof.core (1 + (32 * zeros.length + 2)) s = .next t ∧
            t.trace = s.trace ++ [.accept .disable] ++ ws ∧ t.clockQ = false ∧ t.dataQ = false) ∧
        (s.port.cmdWord = 0x00000FAB0#33 → s.port.cmdData = zeros →
          ∃ t, Host.Core.run Sys2Proof.core (1 + (32 * zeros.length + 2)) s = .next t ∧
            t.trace = s.trace ++ [.accept .transmit] ++ ws)

/-- R106: a transmission always ends. From any state of a transmission, when no reset intervenes, the block is busy
for exactly `remainingSteps` steps and then idle with both lines 0; at the start of a transmission of L byte
positions that is `32 L + 2`. -/
def Obligations.TransmissionEndsAfterItsSteps : Prop :=
  (∀ s : State, s.Inv → s.cfg.clockPin ≠ s.cfg.dataPin → s.NoReset (remainingSteps s) →
    (∀ k, k < remainingSteps s → ∃ u, Host.Core.run Sys2Proof.core k s = .next u ∧ u.busy = true) ∧
    ∃ t, Host.Core.run Sys2Proof.core (remainingSteps s) s = .next t ∧
      t.fsm = 0b000#3 ∧ t.clockQ = false ∧ t.dataQ = false ∧ t.bytePos = s.lenQ ∧ t.faultQ = false) ∧
  (∀ s t : State, step s = .next t → s.port.rst = false → s.accepts = true →
    remainingSteps t = 32 * t.lenQ + 2)

/-- R108: the counts of a frame of L byte positions. -/
def Obligations.FrameCounts : Prop :=
  ∀ (bytes : List Byte) (w : ControlWord),
    (∀ e ∈ frame bytes w, ∃ l v, e = Event.write l v) ∧
    (frame bytes w).length = 32 * bytes.length + 2 ∧
    (writesTo .clock (frame bytes w)).length = 16 * bytes.length + 1 ∧
    (writesTo .data (frame bytes w)).length = 16 * bytes.length + 1 ∧
    (rise (frame bytes w)).length = 8 * bytes.length ∧
    (fallSamples (frame bytes w)).length = 8 * bytes.length ∧
    levelChanges .clock false (frame bytes w) = 16 * bytes.length

/-- R110: sampling DATA at the rising edges of a frame gives the payload's bits, each byte from bit 7 to bit 0. -/
def Obligations.RisingEdgesGiveThePayload : Prop :=
  ∀ (bytes : List Byte) (w : ControlWord),
    rise (frame bytes w) = payloadBits bytes ∧ (rise (frame bytes w)).length = 8 * bytes.length

/-- R111: sampling DATA at the falling edges of a frame of L bytes gives the first 8L bits of the control word
repeated from bit 31: whole copies for each four bytes, and the high `8 * (L mod 4)` bits at the end. -/
def Obligations.FallingEdgesGiveTheControlWord : Prop :=
  ∀ (bytes : List Byte) (w : ControlWord),
    fallSamples (frame bytes w) = (controlStream w (8 * bytes.length)).map (fun b => [b]) ∧
    controlStream w (8 * bytes.length) =
      (List.replicate (bytes.length / 4) ((List.range 32).map fun i => w.getLsbD (31 - i))).flatten ++
        (List.range (8 * (bytes.length % 4))).map fun i => w.getLsbD (31 - i)

/-- R115: the level changes of DATA over a frame are the changes along the values of its DATA writes, from 0; with
the 16 L changes of CLOCK they are the changes of both lines, and the sum is 16 L only when every bit sent is 0. -/
def Obligations.DataLevelChangesOfAFrame : Prop :=
  ∀ (bytes : List Byte) (w : ControlWord),
    levelChanges .data false (frame bytes w) = transitions false (writesTo .data (frame bytes w)) ∧
    levelChanges .clock false (frame bytes w) + levelChanges .data false (frame bytes w) =
      16 * bytes.length + transitions false (writesTo .data (frame bytes w)) ∧
    (levelChanges .clock false (frame bytes w) + levelChanges .data false (frame bytes w) = 16 * bytes.length →
      (∀ b ∈ rise (frame bytes w), b = false) ∧ (∀ b ∈ fallSamples (frame bytes w), b = [false]))

/-- The spec's own timing figures. From the step that accepts a command to `busy = 0` there are exactly
`1 + transmissionSteps L` steps, L being the length the acceptance latched: after each earlier step the block is busy,
after the last it is not. At `STEP_CYCLES` cycles a step that is `(32 L + 3) * STEP_CYCLES` cycles. That cycles are a
formula over the count of steps, which no step reads, is the model's (log 24). -/
def Obligations.TransmissionCycleCount : Prop :=
  ∀ s u : State, s.accepts = true → step s = .next u → s.NoReset (1 + (32 * u.lenQ + 2)) →
    (∀ k, 0 < k → k < 1 + transmissionSteps u.lenQ →
      ∃ v, Host.Core.run Sys2Proof.core k s = .next v ∧ v.busy = true) ∧
    (∃ v, Host.Core.run Sys2Proof.core (1 + transmissionSteps u.lenQ) s = .next v ∧ v.busy = false) ∧
    transmissionCycles s.cfg u.lenQ = (1 + transmissionSteps u.lenQ) * s.cfg.stepCycles ∧
    transmissionCycles s.cfg u.lenQ = (32 * u.lenQ + 3) * s.cfg.stepCycles

/-- The status outputs and the final states: `busy` is `FSM != IDLE`, `cmd_ready` is idle, no fault and no reset,
`fault` is the flag; a final state stays as it is while the host drives nothing more, and a faulted or a busy state
or one with a command to accept is not final. -/
def Obligations.StatusOutputsAndFinalStates : Prop :=
  ∀ s : State,
    (s.busy = true ↔ s.fsm ≠ 0b000#3) ∧ s.fault = s.faultQ ∧
    (s.cmdReady = true ↔ s.fsm = 0b000#3 ∧ s.faultQ = false ∧ s.port.rst = false) ∧
    (s.accepts = true ↔ s.port.cmdValid = true ∧ s.cmdReady = true) ∧
    (s.faultQ = true ∨ s.busy = true ∨ s.accepts = true → s.final = false) ∧
    (s.final = true → s.script = [] → s.cfg.clockPin ≠ s.cfg.dataPin → step s = .next s)
end

