-- ==== Sys2Proof/Laws/State.lean ====
section
/-! SUPPORT. Every field of State after every update: one lemma a field, used in place of unfolding the update. -/

namespace Sys2Proof.Machine

variable (s : State)


/-! ### `State.record` -/

@[simp] theorem record_cfg (e : Event) : (s.record e).cfg = s.cfg := rfl
@[simp] theorem record_clockQ (e : Event) : (s.record e).clockQ = s.clockQ := rfl
@[simp] theorem record_dataQ (e : Event) : (s.record e).dataQ = s.dataQ := rfl
@[simp] theorem record_cwQ (e : Event) : (s.record e).cwQ = s.cwQ := rfl
@[simp] theorem record_lenQ (e : Event) : (s.record e).lenQ = s.lenQ := rfl
@[simp] theorem record_srcQ (e : Event) : (s.record e).srcQ = s.srcQ := rfl
@[simp] theorem record_pb (e : Event) : (s.record e).pb = s.pb := rfl
@[simp] theorem record_fsm (e : Event) : (s.record e).fsm = s.fsm := rfl
@[simp] theorem record_bytePos (e : Event) : (s.record e).bytePos = s.bytePos := rfl
@[simp] theorem record_bitPos (e : Event) : (s.record e).bitPos = s.bitPos := rfl
@[simp] theorem record_faultQ (e : Event) : (s.record e).faultQ = s.faultQ := rfl
@[simp] theorem record_trace (e : Event) : (s.record e).trace = s.trace ++ [e] := rfl
@[simp] theorem record_port (e : Event) : (s.record e).port = s.port := rfl
@[simp] theorem record_script (e : Event) : (s.record e).script = s.script := rfl
@[simp] theorem record_freeIdx (e : Event) : (s.record e).freeIdx = s.freeIdx := rfl

/-! ### `State.lineWrite`, CLOCK -/

@[simp] theorem lineWrite_clock_cfg (v : Level) : (s.lineWrite .clock v).cfg = s.cfg := rfl
@[simp] theorem lineWrite_clock_clockQ (v : Level) : (s.lineWrite .clock v).clockQ = v := rfl
@[simp] theorem lineWrite_clock_dataQ (v : Level) : (s.lineWrite .clock v).dataQ = s.dataQ := rfl
@[simp] theorem lineWrite_clock_cwQ (v : Level) : (s.lineWrite .clock v).cwQ = s.cwQ := rfl
@[simp] theorem lineWrite_clock_lenQ (v : Level) : (s.lineWrite .clock v).lenQ = s.lenQ := rfl
@[simp] theorem lineWrite_clock_srcQ (v : Level) : (s.lineWrite .clock v).srcQ = s.srcQ := rfl
@[simp] theorem lineWrite_clock_pb (v : Level) : (s.lineWrite .clock v).pb = s.pb := rfl
@[simp] theorem lineWrite_clock_fsm (v : Level) : (s.lineWrite .clock v).fsm = s.fsm := rfl
@[simp] theorem lineWrite_clock_bytePos (v : Level) : (s.lineWrite .clock v).bytePos = s.bytePos := rfl
@[simp] theorem lineWrite_clock_bitPos (v : Level) : (s.lineWrite .clock v).bitPos = s.bitPos := rfl
@[simp] theorem lineWrite_clock_faultQ (v : Level) : (s.lineWrite .clock v).faultQ = s.faultQ := rfl
@[simp] theorem lineWrite_clock_trace (v : Level) : (s.lineWrite .clock v).trace = s.trace ++ [.write .clock v] := rfl
@[simp] theorem lineWrite_clock_port (v : Level) : (s.lineWrite .clock v).port = s.port := rfl
@[simp] theorem lineWrite_clock_script (v : Level) : (s.lineWrite .clock v).script = s.script := rfl
@[simp] theorem lineWrite_clock_freeIdx (v : Level) : (s.lineWrite .clock v).freeIdx = s.freeIdx := rfl

/-! ### `State.lineWrite`, DATA -/

@[simp] theorem lineWrite_data_cfg (v : Level) : (s.lineWrite .data v).cfg = s.cfg := rfl
@[simp] theorem lineWrite_data_clockQ (v : Level) : (s.lineWrite .data v).clockQ = s.clockQ := rfl
@[simp] theorem lineWrite_data_dataQ (v : Level) : (s.lineWrite .data v).dataQ = v := rfl
@[simp] theorem lineWrite_data_cwQ (v : Level) : (s.lineWrite .data v).cwQ = s.cwQ := rfl
@[simp] theorem lineWrite_data_lenQ (v : Level) : (s.lineWrite .data v).lenQ = s.lenQ := rfl
@[simp] theorem lineWrite_data_srcQ (v : Level) : (s.lineWrite .data v).srcQ = s.srcQ := rfl
@[simp] theorem lineWrite_data_pb (v : Level) : (s.lineWrite .data v).pb = s.pb := rfl
@[simp] theorem lineWrite_data_fsm (v : Level) : (s.lineWrite .data v).fsm = s.fsm := rfl
@[simp] theorem lineWrite_data_bytePos (v : Level) : (s.lineWrite .data v).bytePos = s.bytePos := rfl
@[simp] theorem lineWrite_data_bitPos (v : Level) : (s.lineWrite .data v).bitPos = s.bitPos := rfl
@[simp] theorem lineWrite_data_faultQ (v : Level) : (s.lineWrite .data v).faultQ = s.faultQ := rfl
@[simp] theorem lineWrite_data_trace (v : Level) : (s.lineWrite .data v).trace = s.trace ++ [.write .data v] := rfl
@[simp] theorem lineWrite_data_port (v : Level) : (s.lineWrite .data v).port = s.port := rfl
@[simp] theorem lineWrite_data_script (v : Level) : (s.lineWrite .data v).script = s.script := rfl
@[simp] theorem lineWrite_data_freeIdx (v : Level) : (s.lineWrite .data v).freeIdx = s.freeIdx := rfl

/-! ### `State.goto` -/

@[simp] theorem goto_cfg (c : FsmCode) : (s.goto c).cfg = s.cfg := rfl
@[simp] theorem goto_clockQ (c : FsmCode) : (s.goto c).clockQ = s.clockQ := rfl
@[simp] theorem goto_dataQ (c : FsmCode) : (s.goto c).dataQ = s.dataQ := rfl
@[simp] theorem goto_cwQ (c : FsmCode) : (s.goto c).cwQ = s.cwQ := rfl
@[simp] theorem goto_lenQ (c : FsmCode) : (s.goto c).lenQ = s.lenQ := rfl
@[simp] theorem goto_srcQ (c : FsmCode) : (s.goto c).srcQ = s.srcQ := rfl
@[simp] theorem goto_pb (c : FsmCode) : (s.goto c).pb = s.pb := rfl
@[simp] theorem goto_fsm (c : FsmCode) : (s.goto c).fsm = c := rfl
@[simp] theorem goto_bytePos (c : FsmCode) : (s.goto c).bytePos = s.bytePos := rfl
@[simp] theorem goto_bitPos (c : FsmCode) : (s.goto c).bitPos = s.bitPos := rfl
@[simp] theorem goto_faultQ (c : FsmCode) : (s.goto c).faultQ = s.faultQ := rfl
@[simp] theorem goto_trace (c : FsmCode) : (s.goto c).trace = s.trace := rfl
@[simp] theorem goto_port (c : FsmCode) : (s.goto c).port = s.port := rfl
@[simp] theorem goto_script (c : FsmCode) : (s.goto c).script = s.script := rfl
@[simp] theorem goto_freeIdx (c : FsmCode) : (s.goto c).freeIdx = s.freeIdx := rfl

/-! ### `State.advance` -/

@[simp] theorem advance_cfg : s.advance.cfg = s.cfg := by unfold State.advance; split <;> rfl
@[simp] theorem advance_clockQ : s.advance.clockQ = s.clockQ := by unfold State.advance; split <;> rfl
@[simp] theorem advance_dataQ : s.advance.dataQ = s.dataQ := by unfold State.advance; split <;> rfl
@[simp] theorem advance_cwQ : s.advance.cwQ = s.cwQ := by unfold State.advance; split <;> rfl
@[simp] theorem advance_lenQ : s.advance.lenQ = s.lenQ := by unfold State.advance; split <;> rfl
@[simp] theorem advance_srcQ : s.advance.srcQ = s.srcQ := by unfold State.advance; split <;> rfl
@[simp] theorem advance_pb : s.advance.pb = s.pb := by unfold State.advance; split <;> rfl
@[simp] theorem advance_faultQ : s.advance.faultQ = s.faultQ := by unfold State.advance; split <;> rfl
@[simp] theorem advance_trace : s.advance.trace = s.trace := by unfold State.advance; split <;> rfl
@[simp] theorem advance_port : s.advance.port = s.port := by unfold State.advance; split <;> rfl
@[simp] theorem advance_script : s.advance.script = s.script := by unfold State.advance; split <;> rfl
@[simp] theorem advance_freeIdx : s.advance.freeIdx = s.freeIdx := by unfold State.advance; split <;> rfl

/-! ### `raiseFault` -/

@[simp] theorem raiseFault_cfg (r : FaultReason) : (raiseFault r s).cfg = s.cfg := by cases r; rfl
@[simp] theorem raiseFault_clockQ (r : FaultReason) : (raiseFault r s).clockQ = s.clockQ := by cases r; rfl
@[simp] theorem raiseFault_dataQ (r : FaultReason) : (raiseFault r s).dataQ = s.dataQ := by cases r; rfl
@[simp] theorem raiseFault_cwQ (r : FaultReason) : (raiseFault r s).cwQ = s.cwQ := by cases r; rfl
@[simp] theorem raiseFault_lenQ (r : FaultReason) : (raiseFault r s).lenQ = s.lenQ := by cases r; rfl
@[simp] theorem raiseFault_srcQ (r : FaultReason) : (raiseFault r s).srcQ = s.srcQ := by cases r; rfl
@[simp] theorem raiseFault_pb (r : FaultReason) : (raiseFault r s).pb = s.pb := by cases r; rfl
@[simp] theorem raiseFault_fsm (r : FaultReason) : (raiseFault r s).fsm = s.fsm := by cases r; rfl
@[simp] theorem raiseFault_bytePos (r : FaultReason) : (raiseFault r s).bytePos = s.bytePos := by cases r; rfl
@[simp] theorem raiseFault_bitPos (r : FaultReason) : (raiseFault r s).bitPos = s.bitPos := by cases r; rfl
@[simp] theorem raiseFault_faultQ (r : FaultReason) : (raiseFault r s).faultQ = true := by cases r; rfl
@[simp] theorem raiseFault_trace (r : FaultReason) : (raiseFault r s).trace = s.trace := by cases r; rfl
@[simp] theorem raiseFault_port (r : FaultReason) : (raiseFault r s).port = s.port := by cases r; rfl
@[simp] theorem raiseFault_script (r : FaultReason) : (raiseFault r s).script = s.script := by cases r; rfl
@[simp] theorem raiseFault_freeIdx (r : FaultReason) : (raiseFault r s).freeIdx = s.freeIdx := by cases r; rfl

/-! ### `resetTransition` -/

@[simp] theorem resetTransition_cfg : (resetTransition s).cfg = s.cfg := rfl
@[simp] theorem resetTransition_clockQ : (resetTransition s).clockQ = false := rfl
@[simp] theorem resetTransition_dataQ : (resetTransition s).dataQ = false := rfl
@[simp] theorem resetTransition_cwQ : (resetTransition s).cwQ = Config.freeControlWord s.freeIdx := rfl
@[simp] theorem resetTransition_lenQ : (resetTransition s).lenQ = 0 := rfl
@[simp] theorem resetTransition_srcQ : (resetTransition s).srcQ = .buffer := rfl
@[simp] theorem resetTransition_pb : (resetTransition s).pb = none := rfl
@[simp] theorem resetTransition_fsm : (resetTransition s).fsm = fsmIdle := rfl
@[simp] theorem resetTransition_bytePos : (resetTransition s).bytePos = 0 := rfl
@[simp] theorem resetTransition_bitPos : (resetTransition s).bitPos = 0#3 := rfl
@[simp] theorem resetTransition_faultQ : (resetTransition s).faultQ = false := rfl
@[simp] theorem resetTransition_trace : (resetTransition s).trace = s.trace ++ [.reset] := rfl
@[simp] theorem resetTransition_port : (resetTransition s).port = s.port := rfl
@[simp] theorem resetTransition_script : (resetTransition s).script = s.script := rfl
@[simp] theorem resetTransition_freeIdx : (resetTransition s).freeIdx = s.freeIdx + 1 := rfl

/-! ### `acceptTransmit` -/

@[simp] theorem acceptTransmit_cfg (cw : ControlWord) (data : List Byte) : (acceptTransmit cw data s).cfg = s.cfg := rfl
@[simp] theorem acceptTransmit_clockQ (cw : ControlWord) (data : List Byte) : (acceptTransmit cw data s).clockQ = s.clockQ := rfl
@[simp] theorem acceptTransmit_dataQ (cw : ControlWord) (data : List Byte) : (acceptTransmit cw data s).dataQ = s.dataQ := rfl
@[simp] theorem acceptTransmit_cwQ (cw : ControlWord) (data : List Byte) : (acceptTransmit cw data s).cwQ = cw := rfl
@[simp] theorem acceptTransmit_lenQ (cw : ControlWord) (data : List Byte) : (acceptTransmit cw data s).lenQ = data.length := rfl
@[simp] theorem acceptTransmit_srcQ (cw : ControlWord) (data : List Byte) : (acceptTransmit cw data s).srcQ = .buffer := rfl
@[simp] theorem acceptTransmit_pb (cw : ControlWord) (data : List Byte) : (acceptTransmit cw data s).pb = some (Memory.bind data) := rfl
@[simp] theorem acceptTransmit_fsm (cw : ControlWord) (data : List Byte) : (acceptTransmit cw data s).fsm = if 0 < data.length then fsmSDpay else fsmSFclk := rfl
@[simp] theorem acceptTransmit_bytePos (cw : ControlWord) (data : List Byte) : (acceptTransmit cw data s).bytePos = 0 := rfl
@[simp] theorem acceptTransmit_bitPos (cw : ControlWord) (data : List Byte) : (acceptTransmit cw data s).bitPos = 0#3 := rfl
@[simp] theorem acceptTransmit_faultQ (cw : ControlWord) (data : List Byte) : (acceptTransmit cw data s).faultQ = s.faultQ := rfl
@[simp] theorem acceptTransmit_trace (cw : ControlWord) (data : List Byte) : (acceptTransmit cw data s).trace = s.trace ++ [.accept .transmit] := rfl
@[simp] theorem acceptTransmit_port (cw : ControlWord) (data : List Byte) : (acceptTransmit cw data s).port = s.port := rfl
@[simp] theorem acceptTransmit_script (cw : ControlWord) (data : List Byte) : (acceptTransmit cw data s).script = s.script := rfl
@[simp] theorem acceptTransmit_freeIdx (cw : ControlWord) (data : List Byte) : (acceptTransmit cw data s).freeIdx = s.freeIdx := rfl

/-! ### `acceptDisable` -/

@[simp] theorem acceptDisable_cfg : (acceptDisable s).cfg = s.cfg := rfl
@[simp] theorem acceptDisable_clockQ : (acceptDisable s).clockQ = s.clockQ := rfl
@[simp] theorem acceptDisable_dataQ : (acceptDisable s).dataQ = s.dataQ := rfl
@[simp] theorem acceptDisable_cwQ : (acceptDisable s).cwQ = cwDisable := rfl
@[simp] theorem acceptDisable_lenQ : (acceptDisable s).lenQ = disableLength s.cfg.disableMode := rfl
@[simp] theorem acceptDisable_srcQ : (acceptDisable s).srcQ = .virtual := rfl
@[simp] theorem acceptDisable_pb : (acceptDisable s).pb = s.pb := rfl
@[simp] theorem acceptDisable_fsm : (acceptDisable s).fsm = if 0 < disableLength s.cfg.disableMode then fsmSDpay else fsmSFclk := rfl
@[simp] theorem acceptDisable_bytePos : (acceptDisable s).bytePos = 0 := rfl
@[simp] theorem acceptDisable_bitPos : (acceptDisable s).bitPos = 0#3 := rfl
@[simp] theorem acceptDisable_faultQ : (acceptDisable s).faultQ = s.faultQ := rfl
@[simp] theorem acceptDisable_trace : (acceptDisable s).trace = s.trace ++ [.accept .disable] := rfl
@[simp] theorem acceptDisable_port : (acceptDisable s).port = s.port := rfl
@[simp] theorem acceptDisable_script : (acceptDisable s).script = s.script := rfl
@[simp] theorem acceptDisable_freeIdx : (acceptDisable s).freeIdx = s.freeIdx := rfl

/-! ### `State.hostTurn` -/

@[simp] theorem hostTurn_cfg (b : Bool) : (s.hostTurn b).cfg = s.cfg := by unfold State.hostTurn; split <;> rfl
@[simp] theorem hostTurn_clockQ (b : Bool) : (s.hostTurn b).clockQ = s.clockQ := by unfold State.hostTurn; split <;> rfl
@[simp] theorem hostTurn_dataQ (b : Bool) : (s.hostTurn b).dataQ = s.dataQ := by unfold State.hostTurn; split <;> rfl
@[simp] theorem hostTurn_cwQ (b : Bool) : (s.hostTurn b).cwQ = s.cwQ := by unfold State.hostTurn; split <;> rfl
@[simp] theorem hostTurn_lenQ (b : Bool) : (s.hostTurn b).lenQ = s.lenQ := by unfold State.hostTurn; split <;> rfl
@[simp] theorem hostTurn_srcQ (b : Bool) : (s.hostTurn b).srcQ = s.srcQ := by unfold State.hostTurn; split <;> rfl
@[simp] theorem hostTurn_pb (b : Bool) : (s.hostTurn b).pb = s.pb := by unfold State.hostTurn; split <;> rfl
@[simp] theorem hostTurn_fsm (b : Bool) : (s.hostTurn b).fsm = s.fsm := by unfold State.hostTurn; split <;> rfl
@[simp] theorem hostTurn_bytePos (b : Bool) : (s.hostTurn b).bytePos = s.bytePos := by unfold State.hostTurn; split <;> rfl
@[simp] theorem hostTurn_bitPos (b : Bool) : (s.hostTurn b).bitPos = s.bitPos := by unfold State.hostTurn; split <;> rfl
@[simp] theorem hostTurn_faultQ (b : Bool) : (s.hostTurn b).faultQ = s.faultQ := by unfold State.hostTurn; split <;> rfl
@[simp] theorem hostTurn_trace (b : Bool) : (s.hostTurn b).trace = s.trace := by unfold State.hostTurn; split <;> rfl
@[simp] theorem hostTurn_freeIdx (b : Bool) : (s.hostTurn b).freeIdx = s.freeIdx := by unfold State.hostTurn; split <;> rfl

/-- With no entry left the levels hold. -/
theorem hostTurn_nil (b : Bool) (h : s.script = []) : s.hostTurn b = s := by unfold State.hostTurn; rw [h]
/-- An entry is what the host means to drive next; while a command is pending it holds that command. -/
theorem hostTurn_cons (b : Bool) {p : Port} {ps : List Port} (h : s.script = p :: ps) :
    s.hostTurn b = { s with port := if b then s.port.held p else p, script := ps } := by
  unfold State.hostTurn; rw [h]

/-! ### `Port.held` -/

@[simp] theorem held_rst (old p : Port) : (old.held p).rst = p.rst := by unfold Port.held; split <;> rfl
@[simp] theorem held_cmdValid (old p : Port) : (old.held p).cmdValid = p.cmdValid := by
  unfold Port.held; split <;> rfl
/-- A command still presented is the old one. -/
theorem held_command (old p : Port) (h : p.cmdValid = true) :
    (old.held p).cmdWord = old.cmdWord ∧ (old.held p).cmdData = old.cmdData := by
  unfold Port.held; rw [if_pos h]; exact ⟨rfl, rfl⟩

/-! ### Outputs after the host's turn -/

@[simp] theorem hostTurn_busy (b : Bool) : (s.hostTurn b).busy = s.busy := by simp [State.busy]

end Sys2Proof.Machine
end

