-- ==== Sys2Proof/Laws/Ops.lean ====
section
/-! SUPPORT. One lemma for each shared operation, saying once everything it can do. -/

namespace Sys2Proof.Machine

/-! ### The payload space -/

theorem read_bindFrom (bytes : List Byte) (a i : Nat) (h : a ≤ i) :
    Memory.read (Memory.bindFrom a bytes) i = bytes[i - a]? := by
  induction bytes generalizing a with
  | nil => simp [Memory.bindFrom, Memory.read]
  | cons b bs ih =>
    simp only [Memory.bindFrom, Memory.read]
    split
    · subst a; simp
    · rw [ih (a + 1) (by omega), List.getElem?_cons, if_neg (by omega)]
      congr 1

/-- Reading a bound payload gives the byte at that place of the list. -/
@[simp] theorem read_bind (bytes : List Byte) (i : Nat) : Memory.read (Memory.bind bytes) i = bytes[i]? := by
  simpa [Memory.bind] using read_bindFrom bytes 0 i (Nat.zero_le i)

theorem wf_bindFrom (bytes : List Byte) (a : Nat) : Memory.wf (Memory.bindFrom a bytes) = true := by
  induction bytes generalizing a with
  | nil => rfl
  | cons b bs ih =>
    cases bs with
    | nil => rfl
    | cons b' bs =>
      have := ih (a + 1)
      simp_all [Memory.bindFrom, Memory.wf]

/-- Binding a payload gives a memory in canonical form. -/
@[simp] theorem wf_bind (bytes : List Byte) : Memory.wf (Memory.bind bytes) = true := wf_bindFrom bytes 0

/-- No payload is bound at reset, so the memory there is in canonical form. -/
theorem reset_memory_wf (m : Memory) (h : State.reset.pb = some m) : Memory.wf m = true := by cases h

theorem cells_above {a : Nat} {b : Byte} {m : Memory} (h : Memory.wf ((a, b) :: m) = true) (i : Nat) (hi : i ≤ a) :
    Memory.read m i = none := by
  induction m generalizing a b with
  | nil => rfl
  | cons c m ih =>
    obtain ⟨a', b'⟩ := c
    simp only [Memory.wf, Bool.and_eq_true, decide_eq_true_eq] at h
    simp only [Memory.read]
    rw [if_neg (by omega), ih h.2 (by omega)]

/-- In canonical form a memory is fixed by what each index reads as. -/
theorem memory_ext {m m' : Memory} (h : Memory.wf m = true) (h' : Memory.wf m' = true)
    (hr : ∀ i, Memory.read m i = Memory.read m' i) : m = m' := by
  induction m generalizing m' with
  | nil =>
    cases m' with
    | nil => rfl
    | cons c m' => simpa [Memory.read] using hr c.1
  | cons c m ih =>
    obtain ⟨a, b⟩ := c
    cases m' with
    | nil => simpa [Memory.read] using hr a
    | cons c' m' =>
      obtain ⟨a', b'⟩ := c'
      have haa : a = a' := by
        rcases Nat.lt_trichotomy a a' with h1 | h1 | h1
        · have := hr a
          rw [Memory.read, if_pos rfl, Memory.read, if_neg (by omega), cells_above h' a (by omega)] at this
          cases this
        · exact h1
        · have := hr a'
          rw [Memory.read, if_neg (by omega), cells_above h a' (by omega), Memory.read, if_pos rfl] at this
          cases this
      subst haa
      have hb := hr a
      simp only [Memory.read, if_pos] at hb
      cases hb
      have tail {n : Memory} (hn : Memory.wf ((a, b) :: n) = true) : Memory.wf n = true := by
        cases n with
        | nil => rfl
        | cons d n => simp only [Memory.wf, Bool.and_eq_true] at hn; exact hn.2
      congr 1
      refine ih (tail h) (tail h') fun i => ?_
      by_cases hi : i = a
      · rw [hi, cells_above h a le_rfl, cells_above h' a le_rfl]
      · have := hr i
        rwa [Memory.read, if_neg (Ne.symm hi), Memory.read, if_neg (Ne.symm hi)] at this

/-- A payload read answers a byte exactly when a buffer is bound, the index is in range and a byte is listed. -/
theorem payloadRead_ok {s : State} {i : Nat} {b : Byte} :
    payloadRead s i = .ok b ↔ ∃ m, s.pb = some m ∧ i < s.lenQ ∧ Memory.read m i = some b := by
  unfold payloadRead
  cases hp : s.pb with
  | none => simp
  | some m =>
    by_cases hi : i < s.lenQ
    · cases hm : Memory.read m i <;> simp [hi, hm]
    · simp [hi]

/-- The payload byte of the current position, by source. -/
theorem payloadByte_ok {s : State} {b : Byte} :
    payloadByte s = .ok b ↔
      (s.srcQ = .virtual ∧ b = s.cfg.virtualByte) ∨
      (s.srcQ = .buffer ∧ ∃ m, s.pb = some m ∧ s.bytePos < s.lenQ ∧ Memory.read m s.bytePos = some b) := by
  unfold payloadByte
  cases hs : s.srcQ with
  | buffer => simp [payloadRead_ok]
  | virtual => simp [eq_comm]

/-- When the payload byte of the current position cannot be read, and under which name. -/
theorem payloadByte_error {s : State} {f : Fault} :
    payloadByte s = .error f ↔
      s.srcQ = .buffer ∧
        ((f = .payloadUnbound ∧ s.pb = none) ∨
         (f = .payloadOutOfRange ∧ s.pb ≠ none ∧ (s.lenQ ≤ s.bytePos ∨ s.byteAt s.bytePos = none))) := by
  unfold payloadByte payloadRead State.byteAt
  cases hs : s.srcQ <;> cases hp : s.pb
  · simp [eq_comm]
  · rename_i m
    by_cases hl : s.bytePos < s.lenQ
    · cases hm : Memory.read m s.bytePos <;> simp [hl, hm, eq_comm]
    · simp [hl, eq_comm]; omega
  · simp
  · simp

/-- The payload byte depends on the configuration, the source, the buffer, the length and the byte position alone. -/
theorem payloadByte_congr {s u : State} (h1 : u.cfg = s.cfg) (h2 : u.srcQ = s.srcQ) (h3 : u.pb = s.pb)
    (h4 : u.lenQ = s.lenQ) (h5 : u.bytePos = s.bytePos) : payloadByte u = payloadByte s := by
  unfold payloadByte payloadRead; rw [h1, h2, h3, h4, h5]

/-! ### The control bit -/

theorem controlIndex_lt (k : Nat) (p : BitPos) : controlIndex k p < 32 := by
  unfold controlIndex; omega

/-! ### Commands -/

/-- What a `TRANSMIT` on the port can do, if it answers a next state. -/
theorem presentTransmit_next {cw : ControlWord} {data : List Byte} {s t : State}
    (h : presentTransmit cw data s = .next t) :
    (s.cmdReady = true ∧ s.cfg.lengthFits data.length = true ∧ t = acceptTransmit cw data s) ∨
    (s.cmdReady = false ∧ t = s) := by
  unfold presentTransmit at h
  split at h
  · split at h
    · cases h; exact .inl ⟨‹_›, ‹_›, rfl⟩
    · cases h
  · cases h; exact .inr ⟨Bool.not_eq_true _ ▸ ‹¬ s.cmdReady = true›, rfl⟩

/-- What a `DISABLE` on the port can do. -/
theorem presentDisable_next {s t : State} (h : presentDisable s = .next t) :
    (s.cmdReady = true ∧ t = acceptDisable s) ∨ (s.cmdReady = false ∧ t = s) := by
  unfold presentDisable at h
  split at h
  · cases h; exact .inl ⟨‹_›, rfl⟩
  · cases h; exact .inr ⟨Bool.not_eq_true _ ▸ ‹¬ s.cmdReady = true›, rfl⟩

/-- The only refusal of a `TRANSMIT` on the port. -/
theorem presentTransmit_refused {cw : ControlWord} {data : List Byte} {s : State} {r : Refusal}
    (h : presentTransmit cw data s = .refused r) :
    r = .lengthTooLarge ∧ s.cmdReady = true ∧ s.cfg.lengthFits data.length = false := by
  unfold presentTransmit at h
  split at h
  · split at h
    · cases h
    · cases h; exact ⟨rfl, ‹_›, (Bool.not_eq_true _).mp ‹¬ s.cfg.lengthFits data.length = true›⟩
  · cases h

/-- A `TRANSMIT` on the port never faults. -/
theorem presentTransmit_no_fault {cw : ControlWord} {data : List Byte} {s : State} {f : Fault} :
    presentTransmit cw data s ≠ .fault f := by
  unfold presentTransmit
  split
  · split <;> simp
  · simp

/-- A `DISABLE` on the port always answers a next state. -/
theorem presentDisable_answers (s : State) : ∃ t, presentDisable s = .next t := by
  unfold presentDisable; split <;> exact ⟨_, rfl⟩

theorem lengthFits_zero (cfg : Config) : cfg.lengthFits 0 = true := by
  unfold Config.lengthFits; split <;> simp

theorem lengthFits_eq_false {cfg : Config} {n : Nat} :
    cfg.lengthFits n = false ↔ ∃ b, cfg.lenBits = some b ∧ 2 ^ b ≤ n := by
  unfold Config.lengthFits
  cases cfg.lenBits <;> simp

@[simp] theorem pinsDistinct_iff {cfg : Config} : cfg.pinsDistinct = true ↔ cfg.clockPin ≠ cfg.dataPin := by
  simp [Config.pinsDistinct]

/-! ### The position -/

/-- The end of `S_CFALL` before the last bit of a byte. -/
theorem advance_of_lt {s : State} (h : s.bitPos.toNat < 7) :
    s.advance = { s with bitPos := s.bitPos + 1#3, fsm := fsmSDpay } := by
  unfold State.advance; rw [if_pos h]

/-- The end of `S_CFALL` at the last bit of a byte. -/
theorem advance_of_last {s : State} (h : s.bitPos.toNat = 7) :
    s.advance =
      { s with
        bitPos := 0#3
        bytePos := s.bytePos + 1
        fsm := if s.bytePos + 1 < s.lenQ then fsmSDpay else fsmSFclk } := by
  unfold State.advance; rw [if_neg (by omega)]

/-! ### The host's turn -/

@[simp] theorem afterStep_next (b : Bool) (s : State) : afterStep b (.next s) = .next (s.hostTurn b) := rfl

/-- A step's next state is a next state of what ran, after the host's turn. -/
theorem afterStep_eq_next {b : Bool} {o : Host.Outcome State Fault Refusal} {t : State} :
    afterStep b o = .next t ↔ ∃ u, o = .next u ∧ t = u.hostTurn b := by
  cases o <;> simp [afterStep, eq_comm]

theorem afterStep_eq_fault {b : Bool} {o : Host.Outcome State Fault Refusal} {f : Fault} :
    afterStep b o = .fault f ↔ o = .fault f := by
  cases o <;> simp [afterStep]

theorem afterStep_eq_refused {b : Bool} {o : Host.Outcome State Fault Refusal} {r : Refusal} :
    afterStep b o = .refused r ↔ o = .refused r := by
  cases o <;> simp [afterStep]

/-! ### The state codes -/

/-- A state code is one of the eight. -/
theorem fsm_cases (c : FsmCode) :
    c = fsmIdle ∨ c = fsmSDpay ∨ c = fsmSCrise ∨ c = fsmSDctl ∨ c = fsmSCfall ∨ c = fsmSFclk ∨ c = fsmSFdata ∨
      c = fsmReserved := by
  revert c; decide

@[simp] theorem decodeFsm_idle : decodeFsm fsmIdle = .idle := by decide
@[simp] theorem decodeFsm_sDpay : decodeFsm fsmSDpay = .sDpay := by decide
@[simp] theorem decodeFsm_sCrise : decodeFsm fsmSCrise = .sCrise := by decide
@[simp] theorem decodeFsm_sDctl : decodeFsm fsmSDctl = .sDctl := by decide
@[simp] theorem decodeFsm_sCfall : decodeFsm fsmSCfall = .sCfall := by decide
@[simp] theorem decodeFsm_sFclk : decodeFsm fsmSFclk = .sFclk := by decide
@[simp] theorem decodeFsm_sFdata : decodeFsm fsmSFdata = .sFdata := by decide
@[simp] theorem decodeFsm_reserved : decodeFsm fsmReserved = .reservedFsm := by decide

/-! ### The command word -/

@[simp] theorem cmdOp_transmitWord (cw : ControlWord) : cmdOp (transmitWord cw) = false := by
  simp [cmdOp, transmitWord]

@[simp] theorem cmdControlWord_transmitWord (cw : ControlWord) : cmdControlWord (transmitWord cw) = cw := by
  apply BitVec.eq_of_toNat_eq
  have := cw.isLt
  simp [cmdControlWord, transmitWord]
  omega

@[simp] theorem cmdOp_disableWord : cmdOp disableWord = true := by decide

/-! ### The opcode table -/

theorem and_bit32 (n m : Nat) (h : m = 2 ^ 32) : n &&& m = if n.testBit 32 then m else 0 := by
  rw [h, Nat.and_two_pow]; cases n.testBit 32 <;> rfl

/-- The row of `TRANSMIT` selects the words with bit 32 clear. -/
theorem rowSelects_transmit (w : CmdWord) :
    rowSelects ⟨"TRANSMIT", 0x100000000, 0x000000000⟩ w.toNat = !w.getLsbD 32 := by
  unfold rowSelects
  rw [and_bit32 _ _ (by norm_num)]
  show ((if w.getLsbD 32 = true then 0x100000000 else 0) == 0) = _
  cases w.getLsbD 32 <;> simp

/-- The row of `DISABLE` selects the words with bit 32 set. -/
theorem rowSelects_disable (w : CmdWord) :
    rowSelects ⟨"DISABLE", 0x100000000, 0x100000000⟩ w.toNat = w.getLsbD 32 := by
  unfold rowSelects
  rw [and_bit32 _ _ (by norm_num)]
  show ((if w.getLsbD 32 = true then 0x100000000 else 0) == 0x100000000) = _
  cases w.getLsbD 32 <;> simp

/-! ### A placed state code -/

/-- The source of a placed state code can be read. -/
theorem payloadByte_readableSource (s : State) : ∃ b, payloadByte { s with srcQ := readableSource s } = .ok b := by
  cases h : payloadByte s with
  | ok b => exact ⟨b, by rw [readableSource, h]; exact h⟩
  | error f => exact ⟨s.cfg.virtualByte, by rw [readableSource, h]; rfl⟩

end Sys2Proof.Machine
end

