-- ==== Sys2Proof/Laws/PerInstr.lean ====
section
/-! SUPPORT. Statements for all instructions, one lemma a constructor. -/

/-! ### EncodesInRow: an instruction's encoding is selected by its own row of the opcode table and no other
(30_encoding.md R82) -/

open Sys2Proof Sys2Proof.Machine

def Sys2Proof.Laws.EncodesInRow.Statement (i : Instr) : Prop := rowsSelecting (encode i) = [mnemonicOf i]

theorem Sys2Proof.Laws.EncodesInRow.transmit (cw : ControlWord) (data : List Byte) :
    Sys2Proof.Laws.EncodesInRow.Statement (.transmit cw data) := by
  have h : (transmitWord cw).getLsbD 32 = false := cmdOp_transmitWord cw
  show ((commandRows.filter fun r => rowSelects r (transmitWord cw).toNat).map (·.mnemonic)) = _
  rw [commandRows, List.filter_cons, List.filter_cons, List.filter_nil, rowSelects_transmit, rowSelects_disable, h]
  rfl

theorem Sys2Proof.Laws.EncodesInRow.disable : Sys2Proof.Laws.EncodesInRow.Statement .disable := by
  have h : disableWord.getLsbD 32 = true := cmdOp_disableWord
  show ((commandRows.filter fun r => rowSelects r disableWord.toNat).map (·.mnemonic)) = _
  rw [commandRows, List.filter_cons, List.filter_cons, List.filter_nil, rowSelects_transmit, rowSelects_disable, h]
  rfl

theorem Sys2Proof.Laws.EncodesInRow.idle : Sys2Proof.Laws.EncodesInRow.Statement .idle := by
  unfold Sys2Proof.Laws.EncodesInRow.Statement; decide

theorem Sys2Proof.Laws.EncodesInRow.sDpay : Sys2Proof.Laws.EncodesInRow.Statement .sDpay := by
  unfold Sys2Proof.Laws.EncodesInRow.Statement; decide

theorem Sys2Proof.Laws.EncodesInRow.sCrise : Sys2Proof.Laws.EncodesInRow.Statement .sCrise := by
  unfold Sys2Proof.Laws.EncodesInRow.Statement; decide

theorem Sys2Proof.Laws.EncodesInRow.sDctl : Sys2Proof.Laws.EncodesInRow.Statement .sDctl := by
  unfold Sys2Proof.Laws.EncodesInRow.Statement; decide

theorem Sys2Proof.Laws.EncodesInRow.sCfall : Sys2Proof.Laws.EncodesInRow.Statement .sCfall := by
  unfold Sys2Proof.Laws.EncodesInRow.Statement; decide

theorem Sys2Proof.Laws.EncodesInRow.sFclk : Sys2Proof.Laws.EncodesInRow.Statement .sFclk := by
  unfold Sys2Proof.Laws.EncodesInRow.Statement; decide

theorem Sys2Proof.Laws.EncodesInRow.sFdata : Sys2Proof.Laws.EncodesInRow.Statement .sFdata := by
  unfold Sys2Proof.Laws.EncodesInRow.Statement; decide

theorem Sys2Proof.Laws.EncodesInRow.reservedFsm : Sys2Proof.Laws.EncodesInRow.Statement .reservedFsm := by
  unfold Sys2Proof.Laws.EncodesInRow.Statement; decide
end

