-- ==== Sys2Proof/Laws/Step.lean ====
section
/-! SUPPORT. What one step can do, by the input and the state code, and what a run of steps is. -/

namespace Sys2Proof.Machine

/-- Everything one step can do, if it answers a next state. `IDLE` with a command presented is split by the
command; every other case is one state code. -/
theorem step_cases {s t : State} (h : step s = .next t) :
    s.cfg.pinsDistinct = true ∧ ∃ u, t = u.hostTurn s.pending ∧
      ((s.port.rst = true ∧ u = resetTransition s) ∨
       (s.port.rst = false ∧ s.faultQ = true ∧ u = s) ∨
       (s.port.rst = false ∧ s.faultQ = false ∧
        ((s.fsm = fsmIdle ∧ s.port.cmdValid = false ∧ u = s) ∨
         (s.fsm = fsmIdle ∧ s.port.cmdValid = true ∧ cmdOp s.port.cmdWord = true ∧ u = acceptDisable s) ∨
         (s.fsm = fsmIdle ∧ s.port.cmdValid = true ∧ cmdOp s.port.cmdWord = false ∧
            s.cfg.lengthFits s.port.cmdData.length = true ∧
            u = acceptTransmit (cmdControlWord s.port.cmdWord) s.port.cmdData s) ∨
         (s.fsm = fsmSDpay ∧ ∃ b, payloadByte s = .ok b ∧
            u = (s.lineWrite .data (payloadBit b s.bitPos)).goto fsmSCrise) ∨
         (s.fsm = fsmSCrise ∧ u = (s.lineWrite .clock true).goto fsmSDctl) ∨
         (s.fsm = fsmSDctl ∧ u = (s.lineWrite .data (controlBit s.cwQ s.bytePos s.bitPos)).goto fsmSCfall) ∨
         (s.fsm = fsmSCfall ∧ u = (s.lineWrite .clock false).advance) ∨
         (s.fsm = fsmSFclk ∧ u = (s.lineWrite .clock false).goto fsmSFdata) ∨
         (s.fsm = fsmSFdata ∧ u = (s.lineWrite .data false).goto fsmIdle) ∨
         (s.fsm = fsmReserved ∧ u = raiseFault .reservedState s)))) := by
  obtain ⟨u, hu, rfl⟩ := afterStep_eq_next.mp h
  by_cases hpins : s.cfg.pinsDistinct = true
  swap
  · simp [beforeSelected, hpins] at hu
  refine ⟨hpins, u, rfl, ?_⟩
  by_cases hr : s.port.rst = true
  · simp [beforeSelected, hpins, hr] at hu
    exact .inl ⟨hr, hu.symm⟩
  rw [Bool.not_eq_true] at hr
  refine .inr ?_
  by_cases hf : s.faultQ = true
  · simp [beforeSelected, hpins, hr, hf] at hu
    exact .inl ⟨hr, hf, hu.symm⟩
  rw [Bool.not_eq_true] at hf
  refine .inr ⟨hr, hf, ?_⟩
  have hb : beforeSelected s = none := by simp [beforeSelected, hpins, hr, hf]
  rw [hb, Option.getD_none] at hu
  unfold selected at hu
  have hready : s.fsm = fsmIdle → s.cmdReady = true := fun h0 => by simp [State.cmdReady, h0, hf, hr]
  rcases fsm_cases s.fsm with h0 | h0 | h0 | h0 | h0 | h0 | h0 | h0
  · by_cases hv : s.port.cmdValid = true
    · rw [if_pos ⟨h0, hv⟩] at hu
      by_cases ho : cmdOp s.port.cmdWord = true
      · simp only [decodeCommand, ho, if_true] at hu
        rcases presentDisable_next hu with ⟨-, rfl⟩ | ⟨hn, -⟩
        · exact .inr (.inl ⟨h0, hv, ho, rfl⟩)
        · rw [hready h0] at hn; cases hn
      · rw [Bool.not_eq_true] at ho
        simp only [decodeCommand, ho] at hu
        rcases presentTransmit_next hu with ⟨-, hfit, rfl⟩ | ⟨hn, -⟩
        · exact .inr (.inr (.inl ⟨h0, hv, ho, hfit, rfl⟩))
        · rw [hready h0] at hn; cases hn
    · rw [if_neg (by simp [hv]), h0, decodeFsm_idle] at hu
      simp [exec, execIdle, hv] at hu
      exact .inl ⟨h0, by simpa using hv, hu.symm⟩
  all_goals rw [if_neg (fun h => absurd (h0.symm.trans h.1) (by decide)), h0] at hu
  · simp only [decodeFsm_sDpay, exec, execSDpay] at hu
    cases hb : payloadByte s with
    | error f => rw [hb] at hu; cases hu
    | ok b => rw [hb] at hu; cases hu; exact .inr (.inr (.inr (.inl ⟨h0, b, rfl, rfl⟩)))
  · simp only [decodeFsm_sCrise, exec, execSCrise] at hu; cases hu; simp [h0, fsmSCrise, fsmIdle, fsmSDpay, fsmSDctl, fsmSCfall, fsmSFclk, fsmSFdata, fsmReserved]
  · simp only [decodeFsm_sDctl, exec, execSDctl] at hu; cases hu; simp [h0, fsmSCrise, fsmIdle, fsmSDpay, fsmSDctl, fsmSCfall, fsmSFclk, fsmSFdata, fsmReserved]
  · simp only [decodeFsm_sCfall, exec, execSCfall] at hu; cases hu; simp [h0, fsmSCrise, fsmIdle, fsmSDpay, fsmSDctl, fsmSCfall, fsmSFclk, fsmSFdata, fsmReserved]
  · simp only [decodeFsm_sFclk, exec, execSFclk] at hu; cases hu; simp [h0, fsmSCrise, fsmIdle, fsmSDpay, fsmSDctl, fsmSCfall, fsmSFclk, fsmSFdata, fsmReserved]
  · simp only [decodeFsm_sFdata, exec, execSFdata] at hu; cases hu; simp [h0, fsmSCrise, fsmIdle, fsmSDpay, fsmSDctl, fsmSCfall, fsmSFclk, fsmSFdata, fsmReserved]
  · simp only [decodeFsm_reserved, exec, execReservedFsm] at hu; cases hu; simp [h0, fsmSCrise, fsmIdle, fsmSDpay, fsmSDctl, fsmSCfall, fsmSFclk, fsmSFdata, fsmReserved]

/-! ### A step by its state code -/

/-- With distinct pins, no reset and no fault, a step is the selected instruction and the host's turn. -/
theorem step_selected {s : State} (hp : s.cfg.pinsDistinct = true) (hr : s.port.rst = false)
    (hf : s.faultQ = false) : step s = afterStep s.pending (exec (selected s) s) := by
  simp [step, beforeSelected, hp, hr, hf]

/-- Outside `IDLE` the state code alone selects. -/
theorem selected_busy {s : State} (h : s.fsm ≠ fsmIdle) : selected s = decodeFsm s.fsm := by
  simp [selected, h]

/-- A faulted block without reset: the host's turn alone. -/
theorem step_faulted {s : State} (hp : s.cfg.pinsDistinct = true) (hr : s.port.rst = false)
    (hf : s.faultQ = true) : step s = .next (s.hostTurn s.pending) := by
  have : beforeSelected s = some (.next s) := by unfold beforeSelected; rw [if_pos hp, hr, hf]; rfl
  rw [step, this]; rfl

/-- A reset: the reset transition and the host's turn. -/
theorem step_reset {s : State} (hp : s.cfg.pinsDistinct = true) (hr : s.port.rst = true) :
    step s = .next ((resetTransition s).hostTurn s.pending) := by
  have : beforeSelected s = some (.next (resetTransition s)) := by unfold beforeSelected; rw [if_pos hp, hr]; rfl
  rw [step, this]; rfl

/-! ### Runs -/

theorem core_run_zero (s : State) : Host.Core.run Sys2Proof.core 0 s = .next s := rfl

theorem run_succ_of_next (M : Host.Core) (n : Nat) {s u : M.State} (h : M.step s = .next u) :
    M.run (n + 1) s = M.run n u := by
  simp only [Host.Core.run, h]

theorem step_next_of_run (M : Host.Core) (n : Nat) {s t : M.State} (h : M.run (n + 1) s = .next t) :
    ∃ u, M.step s = .next u ∧ M.run n u = .next t := by
  simp only [Host.Core.run] at h
  cases hs : M.step s with
  | next u => rw [hs] at h; exact ⟨u, rfl, h⟩
  | fault f => rw [hs] at h; cases h
  | refused r => rw [hs] at h; cases h

/-- A run of one step and more. -/
theorem core_run_succ {s u : State} (h : step s = .next u) (n : Nat) :
    Host.Core.run Sys2Proof.core (n + 1) s = Host.Core.run Sys2Proof.core n u :=
  run_succ_of_next Sys2Proof.core n h

/-- A run of `m + n` steps is a run of `m` and then one of `n`. -/
theorem core_run_add (m n : Nat) {s u : State} (h : Host.Core.run Sys2Proof.core m s = .next u) :
    Host.Core.run Sys2Proof.core (m + n) s = Host.Core.run Sys2Proof.core n u := by
  induction m generalizing s with
  | zero => cases h; rw [Nat.zero_add]
  | succ m ih =>
    obtain ⟨v, hs, hv⟩ := step_next_of_run Sys2Proof.core m h
    rw [Nat.add_right_comm]
    exact (core_run_succ hs (m + n)).trans (ih hv)

/-! ### The host's script -/

/-- Whether a reset comes depends on the host's side alone. -/
theorem noReset_congr {s u : State} (h1 : u.port = s.port) (h2 : u.script = s.script) {n : Nat}
    (h : s.NoReset n) : u.NoReset n := by
  cases n with
  | zero => trivial
  | succ n => unfold State.NoReset at *; rw [h1, h2]; exact h

/-- After a host turn there is one step less without reset. -/
theorem noReset_hostTurn {s : State} {n : Nat} (b : Bool) (h : s.NoReset (n + 1)) : (s.hostTurn b).NoReset n := by
  cases n with
  | zero => trivial
  | succ n =>
    obtain ⟨h0, h1⟩ := h
    cases hs : s.script with
    | nil => simp [State.hostTurn, hs, State.NoReset, h0]
    | cons p ps =>
      rw [hs, List.take_succ_cons] at h1
      rw [hostTurn_cons _ _ hs]
      refine ⟨?_, fun q hq => h1 q (by simp [show q ∈ ps.take n from hq])⟩
      cases b <;> simp [h1 p (by simp)]

end Sys2Proof.Machine
end

