-- ==== Sys2Proof/Tests/Slice0.lean ====
section
/-! SUPPORT. Tests. Expected results are the vectors of 95_test_vectors.md (V, M, H, L1) or hand calculation from the
rules named beside them; and, for every obligation with hypotheses, a witness that meets them together. -/

namespace Sys2Proof.Tests

open Sys2Proof Sys2Proof.Machine

/-! ### Small states -/

def testCfg (mode : DisableMode) (lenBits : Option Nat) : Config :=
  { clockPin := .label "sclk", dataPin := .label "sdata", disableMode := mode, virtualByte := 0x00#8,
    lenBits := lenBits, stepCycles := 1 }

/-- An idle block in a mode, `LEN_BITS` unbounded. -/
def idleIn (mode : DisableMode) : State := { State.reset with cfg := testCfg mode none, cwQ := 0#32 }

/-- A port that presents a command. -/
def presents (word : CmdWord) (data : List Byte) : Port :=
  { rst := false, cmdValid := true, cmdWord := word, cmdData := data }

def withCommand (s : State) (word : CmdWord) (data : List Byte) : State := { s with port := presents word data }

def withReset (s : State) : State := { s with port := { s.port with rst := true } }

/-- What DATA holds in such a block. -/
def heldData (code : FsmCode) (cw : ControlWord) (k : Nat) (p : BitPos) : Bool :=
  if code = fsmSCrise ∨ code = fsmSDctl then payloadBit 0xA5#8 p
  else if code = fsmSCfall then controlBit cw k p
  else if code = fsmSFclk ∨ code = fsmSFdata then cw.getLsbD 24
  else false

/-- A block sending the one byte 0xA5 under a control word, at a state code. -/
def sending (code : FsmCode) (cw : ControlWord) (clock : Bool) (k : Nat) (p : BitPos) : State :=
  { idleIn .noPulse with
    fsm := code, cwQ := cw, clockQ := clock, dataQ := heldData code cw k p, bytePos := k, bitPos := p, lenQ := 1
    srcQ := .buffer, pb := some [(0, 0xA5#8)] }

/-- What a test looks at: a function of the next state. -/
def after {α : Type} (o : Host.Outcome State Fault Refusal) (f : State → α) : Option α := (nextOf o).map f

/-- The last event of the trace. -/
def lastEvent (s : State) : Option Event := s.trace.getLast?

def isNext (o : Host.Outcome State Fault Refusal) : Bool := (nextOf o).isSome

theorem next_of_isNext {o : Host.Outcome State Fault Refusal} (h : isNext o = true) : ∃ t, o = .next t := by
  cases o with
  | next t => exact ⟨t, rfl⟩
  | fault f => cases h
  | refused r => cases h

/-! ### WellFormed: an ill-formed term for each check -/

theorem test_lengthFits_refuses : (testCfg .noPulse (some 1)).lengthFits 2 = false := by decide
theorem test_instr_wellFormed_refuses :
    (Instr.transmit 0x00000000#32 [0x01#8, 0x02#8]).wellFormed (testCfg .noPulse (some 1)) = false := by decide
theorem test_pinsDistinct_refuses :
    ({ testCfg .noPulse none with dataPin := .label "sclk" } : Config).pinsDistinct = false := by decide
theorem test_config_wellFormed_refuses_no_cycles :
    ({ testCfg .noPulse none with stepCycles := 0 } : Config).wellFormed = false := by decide
theorem test_config_wellFormed : (testCfg .noPulse none).wellFormed = true := by decide
theorem test_memory_wf_refuses_order : Memory.wf [(1, 0x00#8), (0, 0x00#8)] = false := by decide
theorem test_memory_wf_refuses_repeat : Memory.wf [(0, 0x00#8), (0, 0x01#8)] = false := by decide

/-! ### Decoding: words written out from R66 (bit 32 over bits 31:0) and R75 (3-bit codes) -/

/-- R81: `TRANSMIT 0x0000FAB1, [0xA5]` is w = 0x0_0000_FAB1 with D = [0xA5]. -/
theorem test_decode_transmit :
    decode (.command 0b000000000000000001111101010110001#33 [0xA5#8]) = .transmit 0x0000FAB1#32 [0xA5#8] := by decide
/-- R81: `DISABLE` is w = 0x1_0000_0000. -/
theorem test_decode_disable :
    decode (.command 0b100000000000000000000000000000000#33 []) = .disable := by decide
/-- R77: a `DISABLE` with a non-zero field and a payload is not illegal. -/
theorem test_decode_disable_ignores : decode (.command 0b111111111111111111111111111111111#33 [0x01#8]) = .disable := by
  decide
theorem test_decode_idle : decode (.fsm 0b000#3) = .idle := by decide
theorem test_decode_sDpay : decode (.fsm 0b001#3) = .sDpay := by decide
theorem test_decode_sCrise : decode (.fsm 0b010#3) = .sCrise := by decide
theorem test_decode_sDctl : decode (.fsm 0b011#3) = .sDctl := by decide
theorem test_decode_sCfall : decode (.fsm 0b100#3) = .sCfall := by decide
theorem test_decode_sFclk : decode (.fsm 0b101#3) = .sFclk := by decide
theorem test_decode_sFdata : decode (.fsm 0b110#3) = .sFdata := by decide
theorem test_decode_reserved : decode (.fsm 0b111#3) = .reservedFsm := by decide
theorem test_decodeTableWord_rejects : encodingOfNat 8 0b1000 = .error (.bitsAboveWord 8) := by decide
theorem test_decodeTableWord_rejects_width : encodingOfNat 41 0 = .error (.noSuchWidth 41) := by decide

/-- Every row of the table runs as the first instruction after reset. -/
theorem test_rows_run_from_reset :
    isNext (step (State.reset.withFetchWord 40 0x00000FAB1)) = true ∧
    isNext (step (State.reset.withFetchWord 40 0x100000000)) = true ∧
    ((List.range 8).all fun code => isNext (step (State.reset.withFetchWord 8 code))) = true := by decide

/-! ### Operands: L1-2 and the table of R72 -/

theorem test_controlIndex :
    controlIndex 0 0#3 = 31 ∧ controlIndex 3 7#3 = 0 ∧ controlIndex 4 0#3 = 31 ∧ controlIndex 1 5#3 = 18 := by decide
theorem test_payloadBits_A5 : bitPositions.map (payloadBit 0xA5#8) = [true, false, true, false, false, true, false, true] := by
  decide

/-! ### TRANSMIT (V1, V4) -/

theorem test_transmit_accepts :
    after (exec (.transmit 0x12345678#32 [0xFF#8]) (idleIn .noPulse))
      (fun t => (t.cwQ, t.lenQ, t.fsm, lastEvent t)) =
    some (0x12345678#32, 1, 0b001#3, some (.accept .transmit)) := by decide
theorem test_transmit_empty :
    after (exec (.transmit 0xDEADBEEF#32 []) (idleIn .noPulse)) (fun t => (t.cwQ, t.lenQ, t.fsm)) =
    some (0xDEADBEEF#32, 0, 0b101#3) := by decide

/-! ### DISABLE (V6, V7) -/

theorem test_disable_noPulse :
    after (exec .disable (idleIn .noPulse)) (fun t => (t.cwQ, t.lenQ, t.srcQ, t.fsm, lastEvent t)) =
    some (0x0000FAB0#32, 0, .virtual, 0b101#3, some (.accept .disable)) := by decide
theorem test_disable_wordCycle :
    after (exec .disable (idleIn .wordCycle)) (fun t => (t.cwQ, t.lenQ, t.srcQ, t.fsm)) =
    some (0x0000FAB0#32, 4, .virtual, 0b001#3) := by decide

/-! ### IDLE (M16, M17) -/

theorem test_idle_quiescent : after (step (idleIn .noPulse)) (fun t => decide (t = idleIn .noPulse)) = some true := by decide
theorem test_idle_accepts_disable :
    after (exec .idle (withCommand (idleIn .noPulse) 0x100000000#33 []))
      (fun t => (t.cwQ, t.lenQ, t.fsm, lastEvent t)) =
    some (0x0000FAB0#32, 0, 0b101#3, some (.accept .disable)) := by decide

/-! ### S_DPAY (M1 to M4) -/

theorem test_sDpay_buffer :
    after (step (sending 0b001#3 0#32 false 0 0#3)) (fun t => (t.fsm, lastEvent t)) =
      some (0b010#3, some (.write .data true)) ∧
    after (step (sending 0b001#3 0#32 false 0 1#3)) lastEvent = some (some (.write .data false)) ∧
    after (step (sending 0b001#3 0#32 false 0 7#3)) lastEvent = some (some (.write .data true)) := by decide
theorem test_sDpay_virtual :
    after (exec .sDpay { sending 0b001#3 0#32 false 3 2#3 with srcQ := .virtual }) (fun t => (t.fsm, lastEvent t)) =
    some (0b010#3, some (.write .data false)) := by decide

/-! ### S_CRISE (M5) -/

theorem test_sCrise :
    after (step (sending 0b010#3 0#32 false 0 0#3)) (fun t => (t.fsm, t.clockQ, lastEvent t)) =
    some (0b011#3, true, some (.write .clock true)) := by decide

/-! ### S_DCTL (M6 to M10) -/

theorem test_sDctl :
    after (step (sending 0b011#3 0x12345678#32 true 4 0#3)) lastEvent = some (some (.write .data false)) ∧
    after (step (sending 0b011#3 0x12345678#32 true 1 5#3)) lastEvent = some (some (.write .data true)) ∧
    after (step (sending 0b011#3 0x12345678#32 true 7 7#3)) lastEvent = some (some (.write .data false)) ∧
    after (step (sending 0b011#3 0x0000FAB1#32 true 2 0#3)) (fun t => (t.fsm, t.dataQ)) = some (0b100#3, true) := by
  decide
theorem test_sDctl_large_position :
    after (step (sending 0b011#3 0x12345678#32 true (2 ^ 40 + 3) 3#3)) lastEvent =
    some (some (.write .data true)) := by decide

/-! ### S_CFALL (M11 to M13) -/

theorem test_sCfall_bit :
    after (step (sending 0b100#3 0#32 true 0 3#3)) (fun t => (t.bitPos, t.bytePos, t.fsm, lastEvent t)) =
    some (4#3, 0, 0b001#3, some (.write .clock false)) := by decide
theorem test_sCfall_byte :
    after (step { sending 0b100#3 0#32 true 2 7#3 with lenQ := 5 }) (fun t => (t.bitPos, t.bytePos, t.fsm)) =
      some (0#3, 3, 0b001#3) ∧
    after (step { sending 0b100#3 0#32 true 4 7#3 with lenQ := 5 }) (fun t => (t.bitPos, t.bytePos, t.fsm)) =
      some (0#3, 5, 0b101#3) := by decide

/-! ### S_FCLK (M14) and S_FDATA (M15, H2) -/

theorem test_sFclk :
    after (step (sending 0b101#3 0#32 false 1 0#3)) (fun t => (t.fsm, t.clockQ, lastEvent t)) =
    some (0b110#3, false, some (.write .clock false)) := by decide
theorem test_sFdata :
    after (step { sending 0b110#3 0#32 false 1 0#3 with dataQ := true }) (fun t => (t.fsm, t.dataQ, t.busy, lastEvent t)) =
    some (0b000#3, false, false, some (.write .data false)) := by decide
theorem test_sFdata_does_not_accept :
    after (step (withCommand (sending 0b110#3 0#32 false 1 0#3) 0x100000000#33 [])) (fun t => (t.fsm, t.srcQ, t.accepts)) =
    some (0b000#3, .buffer, true) := by decide

/-! ### The reserved code (M18, M19) -/

theorem test_reserved :
    after (step (sending 0b111#3 0#32 false 1 0#3)) (fun t => (t.faultQ, t.fsm, t.trace)) =
    some (true, 0b111#3, [.reset]) := by decide
theorem test_faulted_accepts_nothing :
    (withCommand { idleIn .noPulse with faultQ := true } 0x100000000#33 []).cmdReady = false ∧
    after (step (withCommand { idleIn .noPulse with faultQ := true } 0x100000000#33 [])) (fun t => (t.faultQ, t.trace)) =
      some (true, [.reset]) := by decide

/-! ### The port and reset (H1, H3 to H6) -/

/-- H1. -/
theorem test_command_held_while_busy :
    after (step (withCommand (sending 0b011#3 0#32 true 0 0#3) 0x100000000#33 []))
      (fun t => (t.cwQ, t.srcQ, t.fsm, t.port.cmdValid)) = some (0#32, .buffer, 0b100#3, true) := by decide
/-- H3: reset with a command presented: nothing but the reset. -/
theorem test_reset_wins_over_command :
    after (step (withReset (withCommand (sending 0b001#3 0#32 false 0 0#3) 0x100000000#33 [])))
      (fun t => (t.fsm, t.lenQ, lastEvent t)) = some (0b000#3, 0, some .reset) := by decide
/-- H4, H5: the lines after a reset; the falling edge exists only when CLOCK was 1, and admits both values. -/
theorem test_reset_edge :
    after (step (withReset { sending 0b100#3 0#32 true 0 0#3 with
        trace := [.reset, .write .data true, .write .clock true, .write .data true], dataQ := true }))
      (fun t => (t.clockQ, t.dataQ, fallSamples t.trace, rise t.trace)) =
      some (false, false, [[true, false]], [true]) ∧
    fallSamples [.reset, .write .data true, .reset] = [] := by decide
/-- H6. -/
theorem test_reset_clears_fault :
    after (step (withReset { sending 0b111#3 0#32 false 0 0#3 with faultQ := true })) (fun t => (t.faultQ, t.fsm)) =
    some (false, 0b000#3) := by decide
/-- The host's turn: a withdrawn command (R91) is not accepted afterwards. -/
theorem test_script_withdraws :
    after (step { withCommand (sending 0b110#3 0#32 false 1 0#3) 0x100000000#33 [] with script := [Port.quiet] })
      (fun t => (t.fsm, t.port.cmdValid, t.script)) = some (0b000#3, false, []) := by decide

/-- R92 duty 4: a busy block's command cannot be changed by the next entry of the script; reset can still come. -/
theorem test_pending_command_is_kept :
    after (step { withCommand (sending 0b011#3 0#32 true 0 0#3) 0x100000000#33 [] with
        script := [{ presents 0x00000FAB1#33 [0xA5#8] with rst := true }] })
      (fun t => (t.port.cmdWord, t.port.cmdData, t.port.rst)) = some (0x100000000#33, [], true) := by decide
/-- R60: once accepted, another command may follow at once. -/
theorem test_accepted_command_is_followed :
    after (step { withCommand (idleIn .noPulse) 0x100000000#33 [] with script := [presents 0x00000FAB1#33 [0xA5#8]] })
      (fun t => (t.port.cmdWord, t.port.cmdData)) = some (0x00000FAB1#33, [0xA5#8]) := by decide

/-! ### Refusals (R86) -/

theorem test_refuses_long_payload :
    nextOf (exec (.transmit 0#32 [0x01#8, 0x02#8]) { idleIn .noPulse with cfg := testCfg .noPulse (some 1) }) = none := by
  decide
theorem test_refuses_same_pin :
    nextOf (step { idleIn .noPulse with cfg := { testCfg .noPulse none with dataPin := .label "sclk" } }) = none := by
  decide

/-! ### The wire (V1, V3) -/

/-- V1: the whole trace of `TRANSMIT 0x0000FAB1, [0xA5]`, the D writes 1 0 0 0 1 0 0 0 0 0 1 0 0 0 1 0 and the closing
0; the samples. -/
theorem test_frame_V1 :
    (frame [0xA5#8] 0x0000FAB1#32).length = 34 ∧
    writesTo .data (frame [0xA5#8] 0x0000FAB1#32) =
      [true, false, false, false, true, false, false, false, false, false, true, false, false, false, true, false, false] ∧
    rise (frame [0xA5#8] 0x0000FAB1#32) = [true, false, true, false, false, true, false, true] ∧
    levelChanges .data false (frame [0xA5#8] 0x0000FAB1#32) = 8 := by decide
/-- V3, the last byte: only bits 31..24 of 0x12345678 go with the fifth byte. -/
theorem test_frame_V3_tail :
    fallSamples (bytePulses 0x12345678#32 4 0x0F#8) =
      [[false], [false], [false], [true], [false], [false], [true], [false]] := by decide

/-! ### The assembler (R79 to R81) -/

theorem test_assemble :
    assemble ["Transmit 0xFAB1, [0xa5, 1] ; a comment".toList, "enable [255]".toList, "".toList, "DISABLE".toList] =
    .ok [.transmit 0x0000FAB1#32 [0xA5#8, 0x01#8], .transmit 0x0000FAB1#32 [0xFF#8], .disable] := by decide
theorem test_assemble_refuses :
    assemble ["DISABLE".toList, "TRANSMIT 0x100000000, []".toList] = .error (.literalOutOfRange 2) ∧
    assemble ["ENABLE [256]".toList] = .error (.literalOutOfRange 1) ∧
    assemble ["TRANSMIT 1 []".toList] = .error (.badSyntax 1) := by decide
theorem test_disassemble :
    disassemble 0x00000FAB1#33 [0xA5#8] = "TRANSMIT 0x0000FAB1, [0xA5]".toList ∧
    disassemble 0x100000000#33 [] = "DISABLE".toList := by decide

/-! ### Witnesses of the hypotheses of the obligations -/

/-- The sending states meet the invariant when the line and the position fit the code. -/
theorem sending_inv {code : FsmCode} {cw : ControlWord} {clock : Bool} {k : Nat} {p : BitPos}
    (h1 : code ≠ fsmReserved) (h2 : clock = true ↔ code = fsmSDctl ∨ code = fsmSCfall)
    (h3 : pulsing code → k < 1) (h4 : ¬ pulsing code → k = 1 ∧ p = 0#3) : (sending code cw clock k p).Inv where
  noFault := rfl
  notReserved := h1
  clockHigh := h2
  idleData := fun h => by
    cases (show code = fsmIdle from h)
    rfl
  payloadHeld := fun h => by
    obtain rfl : k = 0 := by
      have : pulsing code := by rcases h with h | h <;> simp [pulsing, show code = _ from h]
      have := h3 this
      omega
    refine ⟨0xA5#8, rfl, ?_⟩
    show heldData code cw 0 p = _
    exact if_pos h
  controlHeld := fun h => by
    cases (show code = fsmSCfall from h)
    rfl
  lastHeld := fun h => by
    rcases h with h | h <;> cases (show code = _ from h) <;> rfl
  inRange := h3
  ended := h4
  bound := fun _ _ => ⟨[0xA5#8], rfl, rfl⟩
  fits := fun _ => rfl
  virtualLatched := fun h => by cases h

/-- One state of a transmission for each code, in a pulse and after it, that meets the invariant and steps to a next
state: for every obligation over `s.Inv`, a state code and a step. -/
theorem witness_inv_each_code :
    ((sending fsmIdle 0#32 false 1 0#3).Inv ∧ (sending fsmSDpay 0#32 false 0 0#3).Inv ∧
      (sending fsmSCrise 0#32 false 0 7#3).Inv ∧ (sending fsmSDctl 0#32 true 0 0#3).Inv ∧
      (sending fsmSCfall 0#32 true 0 7#3).Inv ∧ (sending fsmSFclk 0#32 false 1 0#3).Inv ∧
      (sending fsmSFdata 0#32 false 1 0#3).Inv) ∧
    isNext (step (sending fsmIdle 0#32 false 1 0#3)) = true ∧ isNext (step (sending fsmSDpay 0#32 false 0 0#3)) = true ∧
    isNext (step (sending fsmSCrise 0#32 false 0 7#3)) = true ∧ isNext (step (sending fsmSDctl 0#32 true 0 0#3)) = true ∧
    isNext (step (sending fsmSCfall 0#32 true 0 7#3)) = true ∧ isNext (step (sending fsmSFclk 0#32 false 1 0#3)) = true ∧
    isNext (step (sending fsmSFdata 0#32 false 1 0#3)) = true :=
  ⟨⟨sending_inv (by decide) (by decide) (by decide) (by decide), sending_inv (by decide) (by decide) (by decide) (by decide),
    sending_inv (by decide) (by decide) (by decide) (by decide), sending_inv (by decide) (by decide) (by decide) (by decide),
    sending_inv (by decide) (by decide) (by decide) (by decide), sending_inv (by decide) (by decide) (by decide) (by decide),
    sending_inv (by decide) (by decide) (by decide) (by decide)⟩, by decide⟩

/-- DecodeAndEncodeAgree: a state code's instruction; a word with bit 32 clear, at the top of its range, and one set. -/
theorem witness_DecodeAndEncodeAgree :
    encode .sDctl = .fsm 0b011#3 ∧ (0x0FFFFFFFF#33).getLsbD 32 = false ∧ (0x100000000#33).getLsbD 32 = true := by decide

/-- PayloadBitIsTheIndexedBit: the last byte of a buffer; the virtual source. -/
theorem witness_PayloadBitIsTheIndexedBit :
    ((sending fsmSDpay 0#32 false 0 7#3).srcQ = .buffer ∧
      (sending fsmSDpay 0#32 false 0 7#3).pb = some (Memory.bind [0xA5#8]) ∧
      [0xA5#8].length = (sending fsmSDpay 0#32 false 0 7#3).lenQ ∧
      [0xA5#8][(sending fsmSDpay 0#32 false 0 7#3).bytePos]? = some 0xA5#8) ∧
    ({ idleIn .noPulse with srcQ := .virtual } : State).srcQ = .virtual := by decide

/-- AssemblerChecksLiterals: the first control word and the first byte out of range; lines before that assemble, and
a line of each kind. -/
theorem witness_AssemblerChecksLiterals : 2 ^ 32 ≤ 0x100000000 ∧ ∃ b ∈ [255, 256], 255 < b := by decide
theorem witness_AssemblerChecksLiterals_lines :
    assemble ["".toList, "DISABLE".toList] = .ok [.disable] ∧ parseLine (tokens "RESET".toList) = none ∧
    parseLine (tokens "TRANSMIT 0x100000000, []".toList) = some [.transmit 0x100000000 []] ∧
    parseLine (tokens "ENABLE [255, 256]".toList) = some [.enable [255, 256]] ∧
    parseLine (tokens "; note".toList) = some [] ∧ parseLine (tokens "disable".toList) = some [.disable] ∧
    assembleLine 3 .disable = .ok .disable := by decide

/-- StepRunsTheSelectedInstruction: idle with and without a command, and a busy block. -/
theorem witness_StepRunsTheSelectedInstruction :
    ((idleIn .noPulse).cfg.clockPin ≠ (idleIn .noPulse).cfg.dataPin ∧ (idleIn .noPulse).port.rst = false ∧
      (idleIn .noPulse).faultQ = false ∧ (idleIn .noPulse).fsm = 0b000#3 ∧ (idleIn .noPulse).port.cmdValid = false) ∧
    ((withCommand (idleIn .noPulse) 0x100000000#33 []).fsm = 0b000#3 ∧
      (withCommand (idleIn .noPulse) 0x100000000#33 []).port.cmdValid = true ∧
      (withCommand (idleIn .noPulse) 0x100000000#33 []).port.rst = false) ∧
    (sending fsmSDpay 0#32 false 0 0#3).fsm ≠ 0b000#3 := by decide

/-- PlacedInstructionRunsNext: a command and a state code. -/
theorem witness_PlacedInstructionRunsNext :
    (idleIn .noPulse).cfg.clockPin ≠ (idleIn .noPulse).cfg.dataPin ∧ decodeTableWord 40 0x100000000 = some .disable ∧
    decodeTableWord 8 0b001 = some .sDpay := by decide

/-- NextStateTable: the cases beside those of `witness_inv_each_code`: reset, the accepted commands of length 0 and
more, the three ends of `S_CFALL`, the reserved code. -/
theorem witness_NextStateTable :
    isNext (step (withReset (idleIn .noPulse))) = true ∧
    isNext (step (withCommand (idleIn .noPulse) 0x00000FAB1#33 [])) = true ∧
    isNext (step (withCommand (idleIn .noPulse) 0x00000FAB1#33 [0xA5#8])) = true ∧
    isNext (step (withCommand (idleIn .wordCycle) 0x100000000#33 [])) = true ∧
    isNext (step (sending fsmSCfall 0#32 true 0 6#3)) = true ∧
    isNext (step { sending fsmSCfall 0#32 true 3 7#3 with lenQ := 5 }) = true ∧
    isNext (step { sending fsmSCfall 0#32 true 4 7#3 with lenQ := 5 }) = true ∧
    isNext (step (sending fsmReserved 0#32 false 0 0#3)) = true := by decide

/-- PriorityOfSimultaneousEvents, NoStepLeavesTheBlock, ReservedCodeFaultsUntilReset, FaultFlagIsSticky and
ReservedCodeIsNeverEntered: a reset over a fault, a fault, the `S_FDATA` step with a command, the idle block with no
step. -/
theorem witness_PriorityOfSimultaneousEvents :
    (testCfg .noPulse none).clockPin ≠ (testCfg .noPulse none).dataPin ∧
    ((withReset { idleIn .noPulse with faultQ := true }).port.rst = true ∧
      isNext (step (withReset { idleIn .noPulse with faultQ := true })) = true) ∧
    (({ idleIn .noPulse with faultQ := true } : State).port.rst = false ∧
      isNext (step { idleIn .noPulse with faultQ := true }) = true ∧
      ({ idleIn .noPulse with faultQ := true } : State).hasStep = false) ∧
    ((withCommand (sending fsmSFdata 0#32 false 1 0#3) 0x100000000#33 []).port.rst = false ∧
      (withCommand (sending fsmSFdata 0#32 false 1 0#3) 0x100000000#33 []).faultQ = false ∧
      (withCommand (sending fsmSFdata 0#32 false 1 0#3) 0x100000000#33 []).fsm = 0b110#3) ∧
    (idleIn .noPulse).hasStep = false ∧
    after (step (sending fsmReserved 0#32 false 0 0#3)) (fun t => decide (t.fsm = 0b111#3)) = some true := by decide

/-- RefusalsAtTheBoundary: one pin for both lines; the shortest payload that does not fit one bit; a step that is
refused by each. -/
theorem witness_RefusalsAtTheBoundary :
    (({ testCfg .noPulse none with dataPin := .label "sclk" } : Config).clockPin =
      ({ testCfg .noPulse none with dataPin := .label "sclk" } : Config).dataPin) ∧
    ((testCfg .noPulse (some 1)).lenBits = some 1 ∧ 2 ^ 1 ≤ [0x01#8, 0x02#8].length) ∧
    nextOf (step (withCommand { idleIn .noPulse with cfg := testCfg .noPulse (some 1) } 0x000000000#33 [0x01#8, 0x02#8])) =
      none := by decide

/-- FaultOnlyOnUnreadablePayload: no buffer bound; an index at the length; both stop. -/
theorem witness_FaultOnlyOnUnreadablePayload :
    payloadByte { sending fsmSDpay 0#32 false 0 0#3 with pb := none } = .error .payloadUnbound ∧
    payloadByte (sending fsmSDpay 0#32 false 1 0#3) = .error .payloadOutOfRange ∧
    nextOf (step { sending fsmSDpay 0#32 false 0 0#3 with pb := none }) = none ∧
    nextOf (exec .sDpay (sending fsmSDpay 0#32 false 1 0#3)) = none := by decide

/-- TransmitAcceptance, DisableAcceptance and the accepting clause of IdleAcceptsThePresentedCommand: a ready block in
each mode, the longest payload of a bounded register, a presented command of each kind. -/
theorem witness_Acceptance :
    ((idleIn .wordCycle).fsm = 0b000#3 ∧ (idleIn .wordCycle).faultQ = false ∧ (idleIn .wordCycle).port.rst = false) ∧
    (testCfg .noPulse (some 1)).lengthFits [0x01#8].length = true ∧
    (idleIn .wordCycle).cfg.disableMode = .wordCycle ∧ (idleIn .noPulse).cfg.disableMode = .noPulse ∧
    ((presents 0x00000FAB1#33 [0xA5#8]).cmdValid = true ∧ (presents 0x00000FAB1#33 [0xA5#8]).cmdWord.getLsbD 32 = false ∧
      (presents 0x00000FAB1#33 [0xA5#8]).rst = false) ∧
    (presents 0x100000000#33 []).cmdWord.getLsbD 32 = true ∧ (idleIn .noPulse).port.cmdValid = false := by decide

/-- HeldCommandHasNoEffect and BusyBlockIgnoresTheCommandPort: a busy block, a faulted one, one in reset, each with a
command beside it that differs. -/
theorem witness_HeldCommandHasNoEffect :
    (sending fsmSDctl 0#32 true 0 0#3).fsm ≠ 0b000#3 ∧ ({ idleIn .noPulse with faultQ := true } : State).faultQ = true ∧
    (withReset (idleIn .noPulse)).port.rst = true ∧
    (presents 0x100000000#33 []).rst = (sending fsmSDctl 0#32 true 0 0#3).port.rst ∧
    isNext (step (sending fsmSDctl 0#32 true 0 0#3)) = true := by decide

/-- HeldCommandIsAcceptedWhenReady: a busy block with a command; the last pulse of a byte with a `DISABLE` held. -/
theorem witness_HeldCommandIsNotReady :
    (withCommand (sending fsmSDctl 0#32 true 0 0#3) 0x100000000#33 []).port.cmdValid = true ∧
    (withCommand (sending fsmSDctl 0#32 true 0 0#3) 0x100000000#33 []).cmdReady = false ∧
    after (step (withCommand (sending fsmSDctl 0#32 true 0 0#3) 0x100000000#33 [])) (·.port.cmdValid) = some true := by
  decide
/-- The last pulse of a byte with a `DISABLE` held, by a host that means to present another command next. -/
def heldOverCfall : State :=
  { withCommand (sending fsmSCfall 0#32 true 0 7#3) 0x100000000#33 [] with script := [presents 0x00000FAB1#33 [0xA5#8]] }
theorem witness_HeldCommandIsAcceptedWhenReady :
    heldOverCfall.Inv ∧ heldOverCfall.port.cmdValid = true ∧ heldOverCfall.port.rst = false ∧
    remainingSteps heldOverCfall = 3 ∧ heldOverCfall.PortHeld 3 := by
  obtain ⟨a, b, c, d, e, f, g, h, i, j, k, l⟩ :=
    sending_inv (code := fsmSCfall) (cw := 0#32) (clock := true) (k := 0) (p := 7#3) (by decide) (by decide) (by decide)
      (by decide)
  refine ⟨⟨a, b, c, d, e, f, g, h, i, j, k, l⟩, by decide, by decide, by decide, fun p hp => ?_⟩
  cases List.mem_singleton.mp (show p ∈ [presents 0x00000FAB1#33 [0xA5#8]] from hp)
  exact ⟨rfl, rfl⟩

/-- CommandFrame and MicroStepFrame: each instruction answers a next state somewhere; `IDLE` with no command, with a
`DISABLE` and with a `TRANSMIT`. -/
theorem witness_Frames :
    isNext (exec .disable (idleIn .noPulse)) = true ∧ isNext (exec (.transmit 0#32 [0x01#8]) (idleIn .noPulse)) = true ∧
    (idleIn .noPulse).cmdReady = true ∧ (sending fsmSDpay 0#32 false 0 0#3).cmdReady = false ∧
    isNext (exec .idle (idleIn .noPulse)) = true ∧
    isNext (exec .idle (withCommand (idleIn .noPulse) 0x100000000#33 [])) = true ∧
    ([Instr.sDpay, .sCrise, .sDctl, .sCfall, .sFclk, .sFdata, .reservedFsm].all
      fun i => isNext (exec i (sending fsmSDpay 0#32 false 0 0#3))) = true := by decide

/-- PayloadStepWritesThePayloadBit: a byte of the buffer; the virtual source in `idleIn`'s witness above. -/
theorem witness_PayloadStepWritesThePayloadBit :
    (sending fsmSDpay 0#32 false 0 7#3).pb = some [(0, 0xA5#8)] ∧
    (sending fsmSDpay 0#32 false 0 7#3).bytePos < (sending fsmSDpay 0#32 false 0 7#3).lenQ ∧
    Memory.read [(0, 0xA5#8)] (sending fsmSDpay 0#32 false 0 7#3).bytePos = some 0xA5#8 := by decide

/-- ControlStepWritesTheControlBit: a state that `S_CRISE` steps to; ClockFallStepAdvancesThePosition: bits 6 and 7. -/
theorem witness_ControlAndFallSteps :
    ((sending fsmSCrise 0#32 false 0 0#3).faultQ = false ∧ (sending fsmSCrise 0#32 false 0 0#3).fsm ≠ 0b011#3 ∧
      after (step (sending fsmSCrise 0#32 false 0 0#3)) (fun t => decide (t.fsm = 0b011#3)) = some true) ∧
    (6#3).toNat < 7 ∧ (7#3).toNat = 7 := by decide

/-- ResetTransitionSetsEveryElement and ResetAbortsATransmission: a reset in `S_CFALL` with CLOCK 1, DATA 1 (H4) and in
`S_CRISE` with CLOCK 0 (H5), the lines agreeing with the trace. -/
theorem witness_ResetAbortsATransmission :
    (lineAfter .clock false [.reset, .write .data true, .write .clock true, .write .data true] = true ∧
      lineAfter .data false [.reset, .write .data true, .write .clock true, .write .data true] = true ∧
      admits (fallSamples [.reset, .write .data true, .write .clock true, .write .data true]) [] = true) ∧
    (lineAfter .clock false [.reset, .write .data true] = false ∧ lineAfter .data false [.reset, .write .data true] = true) ∧
    (withReset (sending fsmSCfall 0#32 true 0 0#3)).port.rst = true ∧
    isNext (step (withReset (sending fsmSCfall 0#32 true 0 0#3))) = true ∧
    isNext (step (withReset (sending fsmSCrise 0#32 false 0 0#3))) = true := by decide

/-- EdgesSampleTheBits: the rising and the falling edge in steps with no reset. -/
theorem witness_EdgesSampleTheBits :
    ((sending fsmSCrise 0#32 false 0 0#3).fsm = 0b010#3 ∧ (sending fsmSCrise 0#32 false 0 0#3).port.rst = false ∧
      isNext (step (sending fsmSCrise 0#32 false 0 0#3)) = true) ∧
    ((sending fsmSCfall 0#32 true 0 7#3).fsm = 0b100#3 ∧ (sending fsmSCfall 0#32 true 0 7#3).port.rst = false ∧
      isNext (step (sending fsmSCfall 0#32 true 0 7#3)) = true) := by decide

/-- FinalDataStepForcesDataLow: the last step of a transmission of one byte, and of none. -/
theorem witness_FinalDataStepForcesDataLow :
    (sending fsmSFdata 0x01000000#32 false 1 0#3).Inv ∧ 0 < (sending fsmSFdata 0x01000000#32 false 1 0#3).lenQ ∧
    (sending fsmSFdata 0x01000000#32 false 1 0#3).dataQ = true :=
  ⟨sending_inv (by decide) (by decide) (by decide) (by decide), by decide, by decide⟩
theorem witness_FinalDataStepForcesDataLow_empty :
    State.Inv { idleIn .noPulse with fsm := fsmSFdata, srcQ := .virtual, cwQ := cwDisable } where
  noFault := rfl
  notReserved := by decide
  clockHigh := by decide
  idleData := fun _ => rfl
  payloadHeld := fun h => absurd h (by decide)
  controlHeld := fun h => absurd h (by decide)
  lastHeld := fun _ => rfl
  inRange := fun h => absurd h (by decide)
  ended := fun _ => ⟨rfl, rfl⟩
  bound := fun _ h => by cases h
  fits := fun h => by cases h
  virtualLatched := fun _ => ⟨rfl, rfl⟩

/-- NoExceptionInReachableStates: runs from reset of no step, under any configuration, and of one step. -/
theorem witness_NoExceptionInReachableStates :
    (∃ t, Host.Core.run Sys2Proof.core 0 { State.reset with cfg := testCfg .wordCycle (some 3) } = .next t) ∧
    ∃ t, Host.Core.run Sys2Proof.core 1
      { State.reset with cfg := testCfg .wordCycle (some 3), port := presents 0x100000000#33 [] } = .next t :=
  ⟨⟨_, rfl⟩, ⟨_, rfl⟩⟩

/-- PositionStaysInRange and LatchedOperandsChangeOnlyAtAcceptance: a step with no reset and no acceptance in which
`BIT_POS` wraps. -/
theorem witness_PositionStaysInRange :
    (sending fsmSCfall 0#32 true 0 7#3).port.rst = false ∧ (sending fsmSCfall 0#32 true 0 7#3).accepts = false ∧
    after (step (sending fsmSCfall 0#32 true 0 7#3)) (fun t => (t.bytePos, decide (pulsing t.fsm))) = some (1, false) ∧
    after (step (sending fsmSCfall 0#32 true 0 6#3)) (fun t => (t.bytePos, decide (pulsing t.fsm))) = some (0, true) := by
  decide

/-- StepKeepsTheMemoryCanonical. -/
theorem witness_MemoryCanonical : (sending fsmSDpay 0#32 false 0 0#3).MemoryCanonical := by
  intro m h; cases h; rfl

/-- LinesAgreeWithTheTrace: a step from lines that agree. -/
theorem witness_LinesAgreeWithTheTrace :
    lineAfter .clock false (idleIn .noPulse).trace = (idleIn .noPulse).clockQ ∧
    lineAfter .data false (idleIn .noPulse).trace = (idleIn .noPulse).dataQ ∧ isNext (step (idleIn .noPulse)) = true := by
  decide

/-- EachStepIsOneEvent: a step that changes CLOCK, one that changes DATA, a reset that changes both. -/
theorem witness_EachStepIsOneEvent :
    after (step (sending fsmSCrise 0#32 false 0 0#3)) (·.clockQ) = some true ∧
    after (step (sending fsmSDpay 0#32 false 0 0#3)) (·.dataQ) = some true ∧
    after (step (withReset { sending fsmSCfall 0#32 true 0 0#3 with dataQ := true })) (fun t => (t.clockQ, t.dataQ)) =
      some (false, false) := by decide

/-- TransmitSendsItsFrame: no byte and one byte; with the whole payload of a one-bit length register. -/
theorem witness_TransmitSendsItsFrame :
    (withCommand (idleIn .noPulse) 0x0DEADBEEF#33 []).NoReset (1 + (32 * 0 + 2)) ∧
    (withCommand (idleIn .noPulse) 0x00000FAB1#33 [0xA5#8]).NoReset (1 + (32 * 1 + 2)) ∧
    ((presents 0x00000FAB1#33 [0xA5#8]).cmdWord.getLsbD 32 = false ∧
      (presents 0x00000FAB1#33 [0xA5#8]).cmdWord.extractLsb' 0 32 = 0x0000FAB1#32 ∧
      (presents 0x00000FAB1#33 [0xA5#8]).cmdData = [0xA5#8] ∧ [0xA5#8].length = 1 ∧
      (testCfg .noPulse none).lengthFits 1 = true ∧ (testCfg .noPulse (some 1)).lengthFits 1 = true) := by
  refine ⟨⟨rfl, fun p hp => by cases hp⟩, ⟨rfl, fun p hp => by cases hp⟩, by decide⟩

/-- DisableSendsItsFrame and DisableMatchesTransmit: both modes. -/
theorem witness_DisableSendsItsFrame :
    (withCommand (idleIn .noPulse) 0x100000000#33 []).NoReset (1 + (32 * 0 + 2)) ∧
    (withCommand (idleIn .wordCycle) 0x100000000#33 []).NoReset (1 + (32 * 4 + 2)) ∧
    (withCommand (idleIn .wordCycle) 0x00000FAB0#33 [0x00#8, 0x00#8, 0x00#8, 0x00#8]).NoReset (1 + (32 * 4 + 2)) ∧
    0 = (if (idleIn .noPulse).cfg.disableMode = .wordCycle then 4 else 0) ∧
    4 = (if (idleIn .wordCycle).cfg.disableMode = .wordCycle then 4 else 0) ∧
    ((testCfg .wordCycle none).virtualByte = 0x00#8 ∧ (testCfg .wordCycle none).lengthFits 4 = true) := by
  refine ⟨⟨rfl, fun p hp => by cases hp⟩, ⟨rfl, fun p hp => by cases hp⟩, ⟨rfl, fun p hp => by cases hp⟩, by decide⟩

/-- TransmissionEndsAfterItsSteps: the first step of a byte, 34 steps from the end, and an accepting state. -/
theorem witness_TransmissionEndsAfterItsSteps :
    (sending fsmSDpay 0#32 false 0 0#3).Inv ∧ remainingSteps (sending fsmSDpay 0#32 false 0 0#3) = 34 ∧
    (sending fsmSDpay 0#32 false 0 0#3).NoReset 34 ∧
    (withCommand (idleIn .noPulse) 0x100000000#33 []).accepts = true ∧
    isNext (step (withCommand (idleIn .noPulse) 0x100000000#33 [])) = true :=
  ⟨sending_inv (by decide) (by decide) (by decide) (by decide), by decide, ⟨rfl, fun p hp => by cases hp⟩, by decide,
    by decide⟩

/-- TransmissionCycleCount: an accepted `TRANSMIT` of one byte. -/
theorem witness_TransmissionCycleCount :
    (withCommand (idleIn .noPulse) 0x00000FAB1#33 [0xA5#8]).accepts = true ∧
    after (step (withCommand (idleIn .noPulse) 0x00000FAB1#33 [0xA5#8])) (·.lenQ) = some 1 ∧
    (withCommand (idleIn .noPulse) 0x00000FAB1#33 [0xA5#8]).NoReset (1 + (32 * 1 + 2)) :=
  ⟨by decide, by decide, ⟨rfl, fun p hp => by cases hp⟩⟩

/-- ReservedCodeIsNeverEntered: a block found in the reserved code. -/
theorem witness_ReservedCodeIsNeverEntered :
    (sending fsmReserved 0#32 false 0 0#3).cfg.clockPin ≠ (sending fsmReserved 0#32 false 0 0#3).cfg.dataPin ∧
    (sending fsmReserved 0#32 false 0 0#3).fsm = 0b111#3 ∧ (sending fsmReserved 0#32 false 0 0#3).port.rst = false := by
  decide

/-- DataLevelChangesOfAFrame: a frame whose level changes are 16 a byte, every bit sent being 0. -/
theorem witness_DataLevelChangesOfAFrame :
    levelChanges .clock false (frame [0x00#8] 0x00FFFFFF#32) + levelChanges .data false (frame [0x00#8] 0x00FFFFFF#32) =
      16 * [0x00#8].length := by decide

/-- StatusOutputsAndFinalStates: a final state; a faulted, a busy and an accepting one. -/
theorem witness_StatusOutputsAndFinalStates :
    ((idleIn .noPulse).final = true ∧ (idleIn .noPulse).script = []) ∧
    ({ idleIn .noPulse with faultQ := true } : State).faultQ = true ∧ (sending fsmSDpay 0#32 false 0 0#3).busy = true ∧
    (withCommand (idleIn .noPulse) 0x100000000#33 []).accepts = true := by decide

end Sys2Proof.Tests
end

/-! The line registers and the jumps of a step (10_state.md R20, R21, R39, R41, R42). -/

namespace Sys2Proof.Machine

variable {s t : State}

/-! ### What one step does to each line -/

/-- Settles O44: the branches of a step, one code each, show the value CLOCK takes. -/
theorem clockLineWriters : Obligations.ClockLineWriters := by
  intro s t h
  refine ⟨rfl, ?_⟩
  obtain ⟨-, u, rfl, ⟨hr, rfl⟩ | ⟨hr, hf, rfl⟩ | ⟨hr, hf, hrun⟩⟩ := step_cases h
  · simp [hr]
  · simp [hr, hf]
  · simp only [hostTurn_clockQ, hr, hf]
    rcases hrun with ⟨h0, -, rfl⟩ | ⟨h0, -, -, rfl⟩ | ⟨h0, -, -, -, rfl⟩ | ⟨h0, b, -, rfl⟩ | ⟨h0, rfl⟩ |
      ⟨h0, rfl⟩ | ⟨h0, rfl⟩ | ⟨h0, rfl⟩ | ⟨h0, rfl⟩ | ⟨h0, rfl⟩
    all_goals
      simp [h0, fsmIdle, fsmSDpay, fsmSCrise, fsmSDctl, fsmSCfall, fsmSFclk, fsmSFdata, fsmReserved]

/-- Settles O45: the branches of a step, one code each, show the value DATA takes. -/
theorem dataLineWriters : Obligations.DataLineWriters := by
  intro s t h
  refine ⟨rfl, ?_⟩
  obtain ⟨-, u, rfl, ⟨hr, rfl⟩ | ⟨hr, hf, rfl⟩ | ⟨hr, hf, hrun⟩⟩ := step_cases h
  · simp [hr]
  · simp [hr, hf]
  · simp only [hostTurn_dataQ, hr, hf]
    rcases hrun with ⟨h0, -, rfl⟩ | ⟨h0, -, -, rfl⟩ | ⟨h0, -, -, -, rfl⟩ | ⟨h0, b, hb, rfl⟩ | ⟨h0, rfl⟩ |
      ⟨h0, rfl⟩ | ⟨h0, rfl⟩ | ⟨h0, rfl⟩ | ⟨h0, rfl⟩ | ⟨h0, rfl⟩
    all_goals
      simp [*, fsmIdle, fsmSDpay, fsmSCrise, fsmSDctl, fsmSCfall, fsmSFclk, fsmSFdata, fsmReserved]

/-- Without reset or fault, a step outside the three that write DATA leaves it. -/
theorem step_dataQ_of_not_writer (h : step s = .next t) (hr : s.port.rst = false) (hf : s.faultQ = false)
    (h1 : s.fsm ≠ fsmSDpay) (h3 : s.fsm ≠ fsmSDctl) (h6 : s.fsm ≠ fsmSFdata) : t.dataQ = s.dataQ := by
  obtain ⟨-, -, -, hrun⟩ := dataLineWriters s t h
  obtain ⟨-, -, -, hheld⟩ := hrun hr hf
  exact hheld h1 h3 h6

/-! ### Where one step jumps -/

/-- The jump after the last micro-step of a pulse (R105). -/
theorem advance_fsm (s : State) : s.advance.fsm = fsmSDpay ∨ s.advance.fsm = fsmSFclk := by
  unfold State.advance
  split
  · exact .inl rfl
  · dsimp only; split <;> simp

/-- The jumps of the sequencer (R105) from a state that meets the invariant. -/
theorem step_fsm (hs : s.Inv) (h : step s = .next t) :
    (s.port.rst = true ∧ t.fsm = fsmIdle) ∨
    (s.port.rst = false ∧
      ((s.fsm = fsmIdle ∧ (t.fsm = fsmIdle ∨ t.fsm = fsmSDpay ∨ t.fsm = fsmSFclk)) ∨
       (s.fsm = fsmSDpay ∧ t.fsm = fsmSCrise) ∨
       (s.fsm = fsmSCrise ∧ t.fsm = fsmSDctl) ∨
       (s.fsm = fsmSDctl ∧ t.fsm = fsmSCfall) ∨
       (s.fsm = fsmSCfall ∧ (t.fsm = fsmSDpay ∨ t.fsm = fsmSFclk)) ∨
       (s.fsm = fsmSFclk ∧ t.fsm = fsmSFdata) ∨
       (s.fsm = fsmSFdata ∧ t.fsm = fsmIdle))) := by
  obtain ⟨-, u, rfl, ⟨hr, rfl⟩ | ⟨-, hf, -⟩ | ⟨hr, -, hrun⟩⟩ := step_cases h
  · exact .inl ⟨hr, by simp⟩
  · simp [hs.noFault] at hf
  · refine .inr ⟨hr, ?_⟩
    rw [hostTurn_fsm]
    rcases hrun with ⟨h0, -, rfl⟩ | ⟨h0, -, -, rfl⟩ | ⟨h0, -, -, -, rfl⟩ | ⟨h0, b, -, rfl⟩ | ⟨h0, rfl⟩ |
      ⟨h0, rfl⟩ | ⟨h0, rfl⟩ | ⟨h0, rfl⟩ | ⟨h0, rfl⟩ | ⟨h0, -⟩
    · exact .inl ⟨h0, .inl h0⟩
    · refine .inl ⟨h0, .inr ?_⟩
      rw [acceptDisable_fsm]; split <;> simp
    · refine .inl ⟨h0, .inr ?_⟩
      rw [acceptTransmit_fsm]; split <;> simp
    · exact .inr (.inl ⟨h0, rfl⟩)
    · exact .inr (.inr (.inl ⟨h0, rfl⟩))
    · exact .inr (.inr (.inr (.inl ⟨h0, rfl⟩)))
    · exact .inr (.inr (.inr (.inr (.inl ⟨h0, advance_fsm _⟩))))
    · exact .inr (.inr (.inr (.inr (.inr (.inl ⟨h0, rfl⟩)))))
    · exact .inr (.inr (.inr (.inr (.inr (.inr ⟨h0, rfl⟩)))))
    · exact absurd h0 hs.notReserved

/-- A step that ends in `IDLE` is a reset, rests in `IDLE` or is the closing DATA write. -/
theorem of_step_fsm_idle (hs : s.Inv) (h : step s = .next t) (ht : t.fsm = fsmIdle) :
    s.port.rst = true ∨ (s.port.rst = false ∧ (s.fsm = fsmIdle ∨ s.fsm = fsmSFdata)) := by
  rcases step_fsm hs h with ⟨hr, -⟩ | ⟨hr, hjump⟩
  · exact .inl hr
  · refine .inr ⟨hr, ?_⟩
    rcases hjump with ⟨h0, -⟩ | ⟨-, h1⟩ | ⟨-, h1⟩ | ⟨-, h1⟩ | ⟨-, h1 | h1⟩ | ⟨-, h1⟩ | ⟨h0, -⟩
    · exact .inl h0
    iterate 6 exact absurd (ht.symm.trans h1) (by decide)
    · exact .inr h0

/-! ### CLOCK is high between the edges alone -/

/-- R42 before a step: CLOCK is low outside the two codes. -/
theorem State.Inv.clockQ_eq_false (hs : s.Inv) (h3 : s.fsm ≠ fsmSDctl) (h4 : s.fsm ≠ fsmSCfall) :
    s.clockQ = false := by
  simp [← Bool.not_eq_true, hs.clockHigh, h3, h4]

/-- R42 as the invariant says it, after a step. -/
theorem step_clockHigh (hs : s.Inv) (h : step s = .next t) :
    t.clockQ = true ↔ t.fsm = fsmSDctl ∨ t.fsm = fsmSCfall := by
  obtain ⟨-, hclock⟩ := clockLineWriters s t h
  rw [hclock, hs.noFault]
  rcases step_fsm hs h with ⟨hr, ht⟩ | ⟨hr, ⟨h0, ht | ht | ht⟩ | ⟨h0, ht⟩ | ⟨h0, ht⟩ | ⟨h0, ht⟩ |
    ⟨h0, ht | ht⟩ | ⟨h0, ht⟩ | ⟨h0, ht⟩⟩
  · simp [hr, ht, fsmIdle, fsmSDctl, fsmSCfall]
  all_goals
    simp [hs.clockHigh, hr, h0, ht, fsmIdle, fsmSDpay, fsmSCrise, fsmSDctl, fsmSCfall, fsmSFclk, fsmSFdata]

/-- Settles O38: CLOCK is high in the two codes by the jumps of a step, so a write of `S_CRISE` finds it low and one of
`S_CFALL` finds it high. -/
theorem clockHighExactlyBetweenTheEdges : Obligations.ClockHighExactlyBetweenTheEdges := by
  refine ⟨fun s t hs h => step_clockHigh hs h, fun s t hs h hr => ?_⟩
  obtain ⟨-, hclock⟩ := clockLineWriters s t h
  rw [hr, hs.noFault] at hclock
  by_cases h2 : s.fsm = 0b010#3
  · have hlow : s.clockQ = false := hs.clockQ_eq_false (by rw [h2]; decide) (by rw [h2]; decide)
    simp [hclock, hlow, h2]
  by_cases h4 : s.fsm = 0b100#3
  · have hhigh : s.clockQ = true := hs.clockHigh.mpr (.inr h4)
    simp [hclock, hhigh, h4]
  have hsame : t.clockQ = s.clockQ := by
    by_cases h5 : s.fsm = 0b101#3
    · have hlow : s.clockQ = false := hs.clockQ_eq_false (by rw [h5]; decide) (by rw [h5]; decide)
      simp [hclock, h5, hlow]
    · simp [hclock, h2, h4, h5]
  simp [hsame, h2, h4]

/-! ### Both lines are low in `IDLE` -/

/-- Settles O37: `IDLE` is reached by reset, which clears both lines, by `S_FDATA`, which clears DATA, and by resting in
`IDLE`; CLOCK is low there since it is high in two other codes alone. -/
theorem idleLinesAreLow : Obligations.IdleLinesAreLow := by
  refine ⟨⟨rfl, rfl, rfl⟩, fun s t hs h ht => ⟨?_, ?_⟩⟩
  · rw [← Bool.not_eq_true, step_clockHigh hs h, ht]
    decide
  · obtain ⟨-, hreset, -, hrun⟩ := dataLineWriters s t h
    rcases of_step_fsm_idle hs h ht with hr | ⟨hr, h0 | h0⟩
    · exact hreset hr
    · rw [step_dataQ_of_not_writer h hr hs.noFault (by rw [h0]; decide) (by rw [h0]; decide) (by rw [h0]; decide)]
      exact hs.idleData h0
    · obtain ⟨-, -, hfdata, -⟩ := hrun hr hs.noFault
      exact hfdata h0

/-! ### What the edges sample -/

/-- A DATA write at the end of a trace adds no rising-edge sample. -/
theorem riseFrom_append_data (c d : Level) (events : List Event) (v : Level) :
    riseFrom c d (events ++ [.write .data v]) = riseFrom c d events := by
  induction events generalizing c d with
  | nil => rfl
  | cons e es ih => rcases e with ⟨_ | _, _⟩ | _ | _ <;> simp [riseFrom, ih]

/-- A DATA write at the end of a trace adds no falling-edge sample. -/
theorem fallFrom_append_data (c d : Level) (events : List Event) (v : Level) :
    fallFrom c d (events ++ [.write .data v]) = fallFrom c d events := by
  induction events generalizing c d with
  | nil => rfl
  | cons e es ih => rcases e with ⟨_ | _, _⟩ | _ | _ <;> simp [fallFrom, ih]

/-- Settles O39: the invariant holds the bit on DATA at each edge, and neither edge is a writer of DATA. -/
theorem edgesSampleTheBits : Obligations.EdgesSampleTheBits := by
  refine ⟨fun events v => ⟨riseFrom_append_data _ _ events v, fallFrom_append_data _ _ events v⟩,
    fun s t hs h hr => ?_⟩
  have hheld := step_dataQ_of_not_writer h hr hs.noFault
  refine ⟨fun h2 => ?_, fun h4 => ⟨hs.controlHeld h4, ?_⟩, hheld⟩
  · obtain ⟨b, hb, hbit⟩ := hs.payloadHeld (.inl h2)
    exact ⟨b, hb, hbit, hheld (by rw [h2]; decide) (by rw [h2]; decide) (by rw [h2]; decide)⟩
  · exact hheld (by rw [h4]; decide) (by rw [h4]; decide) (by rw [h4]; decide)

end Sys2Proof.Machine

/-! The line write, and what a step does to the lines and the trace (20_memory.md R46, R55). -/

namespace Sys2Proof.Machine

variable {s t u : State}

/-! ### The state on other line levels -/

/-- The same state with other levels on its two line registers. -/
def State.withLines (s : State) (c d : Level) : State := { s with clockQ := c, dataQ := d }

@[simp] theorem withLines_cmdReady (c d : Level) : (s.withLines c d).cmdReady = s.cmdReady := rfl
@[simp] theorem withLines_cfg (c d : Level) : (s.withLines c d).cfg = s.cfg := rfl
@[simp] theorem withLines_port (c d : Level) : (s.withLines c d).port = s.port := rfl
@[simp] theorem withLines_pending (c d : Level) : (s.withLines c d).pending = s.pending := rfl
@[simp] theorem withLines_selected (c d : Level) : selected (s.withLines c d) = selected s := rfl

@[simp] theorem payloadByte_withLines (c d : Level) : payloadByte (s.withLines c d) = payloadByte s :=
  payloadByte_congr rfl rfl rfl rfl rfl

@[simp] theorem advance_withLines (c d : Level) : (s.withLines c d).advance = s.advance.withLines c d := by
  by_cases hp : s.bitPos.toNat < 7
  · rw [advance_of_lt hp, advance_of_lt (s := s.withLines c d) hp]; rfl
  · have hlast : s.bitPos.toNat = 7 := by omega
    rw [advance_of_last hlast, advance_of_last (s := s.withLines c d) hlast]; rfl

@[simp] theorem hostTurn_withLines (c d : Level) (b : Bool) :
    (s.withLines c d).hostTurn b = (s.hostTurn b).withLines c d := by
  cases hs : s.script with
  | nil => rw [hostTurn_nil s b hs, hostTurn_nil (s.withLines c d) b hs]
  | cons p ps => rw [hostTurn_cons s b hs, hostTurn_cons (s.withLines c d) b hs]; rfl

/-! ### No instruction reads a line back -/

/-- A `TRANSMIT` on the port does the same on other line levels. -/
theorem presentTransmit_withLines {cw : ControlWord} {data : List Byte} (h : presentTransmit cw data s = .next u)
    (c d : Level) : presentTransmit cw data (s.withLines c d) = .next (u.withLines c d) := by
  rcases presentTransmit_next h with ⟨hready, hfits, rfl⟩ | ⟨hready, rfl⟩
  · simp only [presentTransmit, withLines_cmdReady, withLines_cfg, hready, hfits, if_true]; rfl
  · simp [presentTransmit, hready]

/-- A `DISABLE` on the port does the same on other line levels. -/
theorem presentDisable_withLines (h : presentDisable s = .next u) (c d : Level) :
    presentDisable (s.withLines c d) = .next (u.withLines c d) := by
  rcases presentDisable_next h with ⟨hready, rfl⟩ | ⟨hready, rfl⟩
  · simp only [presentDisable, withLines_cmdReady, hready, if_true]; rfl
  · simp [presentDisable, hready]

/-- `IDLE` does the same on other line levels. -/
theorem execIdle_withLines (h : execIdle s = .next u) (c d : Level) :
    execIdle (s.withLines c d) = .next (u.withLines c d) := by
  unfold execIdle at h ⊢
  rw [withLines_port]
  by_cases hv : s.port.cmdValid = true
  · rw [if_pos hv] at h ⊢
    by_cases ho : cmdOp s.port.cmdWord = true
    · rw [if_pos ho] at h ⊢
      exact presentDisable_withLines h c d
    · rw [if_neg ho] at h ⊢
      exact presentTransmit_withLines h c d
  · rw [if_neg hv] at h ⊢
    cases h
    rfl

/-- An instruction answers the same next state on other line levels, the levels aside. A line write gives its own
line the same level in both; the other line keeps the level it had. -/
theorem exec_withLines {i : Instr} (h : exec i s = .next u) (c d : Level) :
    ∃ c' d', exec i (s.withLines c d) = .next (u.withLines c' d') := by
  cases i with
  | transmit cw data => exact ⟨c, d, presentTransmit_withLines h c d⟩
  | disable => exact ⟨c, d, presentDisable_withLines h c d⟩
  | idle => exact ⟨c, d, execIdle_withLines h c d⟩
  | sDpay =>
    simp only [exec, execSDpay, payloadByte_withLines] at h ⊢
    cases hb : payloadByte s with
    | error f => rw [hb] at h; cases h
    | ok b => rw [hb] at h; cases h; exact ⟨c, payloadBit b s.bitPos, rfl⟩
  | sCrise => cases h; exact ⟨true, d, rfl⟩
  | sDctl => cases h; exact ⟨c, controlBit s.cwQ s.bytePos s.bitPos, rfl⟩
  | sCfall => cases h; exact ⟨false, d, congrArg _ (advance_withLines (s := s.lineWrite .clock false) false d)⟩
  | sFclk => cases h; exact ⟨false, d, rfl⟩
  | sFdata => cases h; exact ⟨c, false, rfl⟩
  | reservedFsm => cases h; exact ⟨c, d, rfl⟩

/-- A step answers the same next state on other line levels, the levels aside. -/
theorem step_withLines (h : step s = .next t) (c d : Level) :
    ∃ c' d', step (s.withLines c d) = .next (t.withLines c' d') := by
  obtain ⟨hpins, -⟩ := step_cases h
  by_cases hr : s.port.rst = true
  · rw [step_reset hpins hr] at h
    cases h
    exact ⟨false, false, by rw [step_reset (s := s.withLines c d) hpins hr, ← hostTurn_withLines]; rfl⟩
  rw [Bool.not_eq_true] at hr
  by_cases hf : s.faultQ = true
  · rw [step_faulted hpins hr hf] at h
    cases h
    exact ⟨c, d, by rw [step_faulted (s := s.withLines c d) hpins hr hf, hostTurn_withLines, withLines_pending]⟩
  rw [Bool.not_eq_true] at hf
  rw [step_selected hpins hr hf] at h
  obtain ⟨u, hu, rfl⟩ := afterStep_eq_next.mp h
  obtain ⟨c', d', hu'⟩ := exec_withLines hu c d
  refine ⟨c', d', ?_⟩
  rw [step_selected (s := s.withLines c d) hpins hr hf, withLines_selected, hu', afterStep_next, hostTurn_withLines,
    withLines_pending]

/-- Settles O46: a line write is its register and its event by definition, and no instruction reads a line back. -/
theorem lineWriteAndNoReadBack : Obligations.LineWriteAndNoReadBack := by
  refine ⟨fun s v => ⟨rfl, rfl⟩, fun s t c d h => ?_⟩
  obtain ⟨c', d', h'⟩ := step_withLines h c d
  exact ⟨t.withLines c' d', h', rfl⟩

/-! ### The event of a step -/

/-- What a step appends to the trace, with what it does to the lines: a reset's event, one write of one line, one
acceptance, or nothing. -/
theorem step_event (h : step s = .next t) :
    (s.port.rst = true ∧ t.trace = s.trace ++ [.reset]) ∨
    (s.port.rst = false ∧
      ((t.trace = s.trace ++ [.write .clock t.clockQ] ∧ t.dataQ = s.dataQ) ∨
       (t.trace = s.trace ++ [.write .data t.dataQ] ∧ t.clockQ = s.clockQ) ∨
       ((t.trace = s.trace ∨ ∃ op, t.trace = s.trace ++ [.accept op]) ∧
         t.clockQ = s.clockQ ∧ t.dataQ = s.dataQ))) := by
  obtain ⟨-, u, rfl, ⟨hr, rfl⟩ | ⟨hr, -, rfl⟩ | ⟨hr, -, hrun⟩⟩ := step_cases h
  · exact .inl ⟨hr, by simp⟩
  · exact .inr ⟨hr, .inr (.inr (by simp))⟩
  · refine .inr ⟨hr, ?_⟩
    rcases hrun with ⟨-, -, rfl⟩ | ⟨-, -, -, rfl⟩ | ⟨-, -, -, -, rfl⟩ | ⟨-, b, -, rfl⟩ | ⟨-, rfl⟩ |
      ⟨-, rfl⟩ | ⟨-, rfl⟩ | ⟨-, rfl⟩ | ⟨-, rfl⟩ | ⟨-, rfl⟩
    · exact .inr (.inr (by simp))
    · exact .inr (.inr (by simp))
    · exact .inr (.inr (by simp))
    · exact .inr (.inl (by simp))
    · exact .inl (by simp)
    · exact .inr (.inl (by simp))
    · exact .inl (by simp)
    · exact .inl (by simp)
    · exact .inr (.inl (by simp))
    · exact .inr (.inr (by simp))

/-- Settles O47: the one event of a step is a write of CLOCK, which leaves DATA, a write of DATA, which leaves CLOCK, or
an event that leaves both; a reset alone does more. -/
theorem eachStepIsOneEvent : Obligations.EachStepIsOneEvent := by
  intro s t h
  rcases step_event h with ⟨hr, he⟩ | ⟨hr, ⟨he, hd⟩ | ⟨he, hc⟩ | ⟨he | ⟨op, he⟩, hc, hd⟩⟩
  · simp [hr, he]
  · simp [he, hd]
  · simp [he, hc]
  · simp [he, hc, hd]
  · simp [he, hc, hd]

end Sys2Proof.Machine

/-! The opcode table, the two indexed bits and the reserved code (30_encoding.md R72 to R76, R82). -/

namespace Sys2Proof.Machine

variable {s t : State}

/-! ### The opcode table -/

/-- Bit 32 of a command word selects the row (R67). -/
theorem rowsSelecting_command (word : CmdWord) (data : List Byte) :
    rowsSelecting (.command word data) = [if word.getLsbD 32 then "DISABLE" else "TRANSMIT"] := by
  simp only [rowsSelecting, commandRows, List.filter_cons, rowSelects_transmit, rowSelects_disable]
  cases word.getLsbD 32 <;> rfl

/-- Bit 32 of a command word tells its instruction's name (R78). -/
theorem mnemonicOf_decode_command (word : CmdWord) (data : List Byte) :
    mnemonicOf (decode (.command word data)) = if word.getLsbD 32 then "DISABLE" else "TRANSMIT" :=
  apply_ite mnemonicOf (cmdOp word = true) .disable (.transmit (cmdControlWord word) data)

/-- A state code is in the row of its micro-step, the encoding of that micro-step being the code itself (R75). -/
theorem rowsSelecting_fsm (code : FsmCode) : rowsSelecting (.fsm code) = [mnemonicOf (decode (.fsm code))] := by
  rcases fsm_cases code with rfl | rfl | rfl | rfl | rfl | rfl | rfl | rfl
  · exact Laws.EncodesInRow.idle
  · exact Laws.EncodesInRow.sDpay
  · exact Laws.EncodesInRow.sCrise
  · exact Laws.EncodesInRow.sDctl
  · exact Laws.EncodesInRow.sCfall
  · exact Laws.EncodesInRow.sFclk
  · exact Laws.EncodesInRow.sFdata
  · exact Laws.EncodesInRow.reservedFsm

/-- Settles O3: bit 32 selects the row of a command and its instruction alike; a state code has its micro-step's row. -/
theorem everyEncodingSelectsOneTableRow : Obligations.EveryEncodingSelectsOneTableRow := by
  refine ⟨fun word data => ⟨?_, rowsSelecting_command word data⟩, rowsSelecting_fsm⟩
  rw [rowsSelecting_command, mnemonicOf_decode_command]

/-! ### The indexed bits -/

/-- A bit read by shift and mask. -/
theorem ushiftRight_and_one {w : Nat} (x : BitVec w) (i : Nat) :
    (x >>> i) &&& 1#w = if x.getLsbD i then 1#w else 0#w := by
  rw [← BitVec.twoPow_zero, BitVec.and_twoPow, BitVec.getLsbD_ushiftRight, Nat.add_zero]

/-- The subtraction of the control index loses nothing: what is taken from 31 is at most 31. -/
theorem controlIndex_add (k : Nat) (p : BitPos) : controlIndex k p + (8 * (k % 4) + p.toNat) = 31 := by
  unfold controlIndex; omega

/-- Settles O4: the index and what it is taken from add up to 31, so neither is negative. -/
theorem controlBitIsTheIndexedBit : Obligations.ControlBitIsTheIndexedBit := by
  intro w k p
  have hsum := controlIndex_add k p
  exact ⟨by omega, by omega, by omega, rfl, ushiftRight_and_one w _⟩

/-- A byte within the bound payload is the payload byte of a transmission from the buffer (R44, R73). -/
theorem payloadByte_of_bound {bytes : List Byte} {b : Byte} (hsrc : s.srcQ = .buffer)
    (hpb : s.pb = some (Memory.bind bytes)) (hlen : bytes.length = s.lenQ) (hb : bytes[s.bytePos]? = some b) :
    payloadByte s = .ok b := by
  obtain ⟨hlt, -⟩ := List.getElem?_eq_some_iff.mp hb
  exact payloadByte_ok.mpr (.inr ⟨hsrc, _, hpb, hlen ▸ hlt, (read_bind bytes _).trans hb⟩)

/-- Settles O5: a bit position is below 8, and the byte is the one its source names. -/
theorem payloadBitIsTheIndexedBit : Obligations.PayloadBitIsTheIndexedBit := by
  exact ⟨fun b p => ⟨by omega, rfl, ushiftRight_and_one b _⟩, fun s bytes b => payloadByte_of_bound,
    fun s hsrc => payloadByte_ok.mpr (.inl ⟨hsrc, rfl⟩)⟩

/-! ### A block of four byte positions -/

/-- The control index repeats every four byte positions. -/
theorem controlIndex_four_mul_add (m k : Nat) (p : BitPos) : controlIndex (4 * m + k) p = controlIndex k p := by
  simp only [controlIndex, Nat.mul_add_mod]

/-- The indices of a block in transmission order (R74). -/
theorem controlIndex_block (m : Nat) :
    ([0, 1, 2, 3].flatMap fun j => bitPositions.map fun p => controlIndex (4 * m + j) p) =
      (List.range 32).map (fun i => 31 - i) := by
  simp only [controlIndex_four_mul_add]
  decide

/-- Settles O6: every block visits the indices of the first one, and its bits are the word's at those indices. -/
theorem blockSendsEveryControlBitOnce : Obligations.BlockSendsEveryControlBitOnce := by
  intro w m
  have hbits := congrArg (List.map w.getLsbD) (controlIndex_block m)
  simp only [List.map_flatMap, List.map_map] at hbits
  exact ⟨controlIndex_block m, hbits⟩

/-! ### The reserved code -/

/-- A fault raised again changes nothing. -/
theorem raiseFault_of_faultQ (hf : s.faultQ = true) : raiseFault .reservedState s = s := by
  cases s; cases hf; rfl

/-- The step that finds the reserved code raises the fault, as its micro-step or because it stands already (R76). -/
theorem step_reserved (hp : s.cfg.pinsDistinct = true) (hr : s.port.rst = false) (h7 : s.fsm = fsmReserved) :
    step s = .next ((raiseFault .reservedState s).hostTurn s.pending) := by
  by_cases hf : s.faultQ = true
  · rw [step_faulted hp hr hf, raiseFault_of_faultQ hf]
  · have hsel : selected s = .reservedFsm := by rw [selected_busy (by rw [h7]; decide), h7, decodeFsm_reserved]
    rw [step_selected hp hr (Bool.not_eq_true _ ▸ hf), hsel]
    rfl

/-- A step ends in the reserved code only where it began there with no reset: no jump of R105 leads to it. -/
theorem of_step_fsm_reserved (h : step s = .next t) (ht : t.fsm = fsmReserved) :
    s.fsm = fsmReserved ∧ s.port.rst = false := by
  obtain ⟨-, u, rfl, ⟨-, rfl⟩ | ⟨hr, -, rfl⟩ | ⟨hr, -, hrun⟩⟩ := step_cases h <;> rw [hostTurn_fsm] at ht
  · exact absurd ht (by decide : fsmIdle ≠ fsmReserved)
  · exact ⟨ht, hr⟩
  · refine ⟨?_, hr⟩
    have hstart (c : Prop) [Decidable c] : (if c then fsmSDpay else fsmSFclk) ≠ fsmReserved := by split <;> decide
    rcases hrun with ⟨-, -, rfl⟩ | ⟨-, -, -, rfl⟩ | ⟨-, -, -, -, rfl⟩ | ⟨-, b, -, rfl⟩ | ⟨-, rfl⟩ |
      ⟨-, rfl⟩ | ⟨-, rfl⟩ | ⟨-, rfl⟩ | ⟨-, rfl⟩ | ⟨h0, -⟩
    · exact ht
    · exact absurd ht (hstart _)
    · exact absurd ht (hstart _)
    · exact absurd ht (by decide : fsmSCrise ≠ fsmReserved)
    · exact absurd ht (by decide : fsmSDctl ≠ fsmReserved)
    · exact absurd ht (by decide : fsmSCfall ≠ fsmReserved)
    · rcases advance_fsm (s.lineWrite .clock false) with h1 | h1 <;> exact absurd (h1.symm.trans ht) (by decide)
    · exact absurd ht (by decide : fsmSFdata ≠ fsmReserved)
    · exact absurd ht (by decide : fsmIdle ≠ fsmReserved)
    · exact h0

/-- Settles O50: no jump leads to the reserved code, and the step that finds it raises the fault, which writes no
line. -/
theorem reservedCodeIsNeverEntered : Obligations.ReservedCodeIsNeverEntered := by
  refine ⟨by decide, fun s t => of_step_fsm_reserved, fun s hp h7 hr => ?_⟩
  exact ⟨_, step_reserved (pinsDistinct_iff.mpr hp) hr h7, by simp⟩

end Sys2Proof.Machine

/-! The two commands from acceptance to the end, and a command held over a transmission (40_commands.md R85, R87 to
R89; 41_sequencer.md R106). -/

namespace Sys2Proof.Machine

variable {s t u : State} {bytes : List Byte} {cw : ControlWord} {total : List Event}

/-! ### The events of a frame by their index -/

/-- Four events a bit: event `j` of the pulse of entry `i`. -/
theorem getElem?_flatMap_pulse (l : List BitPos) (f g : BitPos → Level) (i : Nat) {j : Nat} (hj : j < 4) :
    (l.flatMap fun p => pulse (f p) (g p))[4 * i + j]? = l[i]?.bind fun p => (pulse (f p) (g p))[j]? := by
  induction l generalizing i with
  | nil => rfl
  | cons p l ih =>
    have hlen : (pulse (f p) (g p)).length = 4 := rfl
    rw [List.flatMap_cons]
    cases i with
    | zero => rw [List.getElem?_append_left (by omega), Nat.mul_zero, Nat.zero_add]; rfl
    | succ i =>
      rw [List.getElem?_append_right (by omega), hlen, show 4 * (i + 1) + j - 4 = 4 * i + j by omega, ih]
      rfl

theorem length_bytePulses (w : ControlWord) (k : Nat) (b : Byte) : (bytePulses w k b).length = 32 := rfl

/-- Event `j` of the pulse of bit position `p`. -/
theorem getElem?_bytePulses (w : ControlWord) (k : Nat) (b : Byte) (p : BitPos) {j : Nat} (hj : j < 4) :
    (bytePulses w k b)[4 * p.toNat + j]? = (pulse (payloadBit b p) (controlBit w k p))[j]? := by
  have hp : bitPositions[p.toNat]? = some p := by revert p; decide
  rw [bytePulses, getElem?_flatMap_pulse _ _ _ _ hj, hp, Option.bind_some]

theorem length_framePulses (w : ControlWord) (k : Nat) (bytes : List Byte) :
    (framePulses w k bytes).length = 32 * bytes.length := by
  induction bytes generalizing k with
  | nil => rfl
  | cons b bs ih => rw [framePulses, List.length_append, length_bytePulses, ih, List.length_cons]; omega

theorem length_frame (bytes : List Byte) (w : ControlWord) : (frame bytes w).length = 32 * bytes.length + 2 := by
  rw [frame, List.length_append, length_framePulses]; rfl

/-- Event `j` of the pulse of byte `i` and bit position `p`, the first byte at position `k`. -/
theorem getElem?_framePulses (w : ControlWord) (k : Nat) {i : Nat} {b : Byte} (hb : bytes[i]? = some b) (p : BitPos)
    {j : Nat} (hj : j < 4) :
    (framePulses w k bytes)[32 * i + (4 * p.toNat + j)]? = (pulse (payloadBit b p) (controlBit w (k + i) p))[j]? := by
  induction bytes generalizing k i with
  | nil => simp at hb
  | cons b' bs ih =>
    have hlen := length_bytePulses w k b'
    rw [framePulses]
    cases i with
    | zero =>
      obtain rfl : b' = b := by simpa using hb
      rw [List.getElem?_append_left (by omega), Nat.mul_zero, Nat.zero_add, getElem?_bytePulses w k b' p hj]
      rfl
    | succ i =>
      rw [List.getElem?_append_right (by omega), hlen,
        show 32 * (i + 1) + (4 * p.toNat + j) - 32 = 32 * i + (4 * p.toNat + j) by omega, ih (k + 1) hb,
        Nat.add_right_comm, Nat.add_assoc]

/-- A pulse of a frame (R71). -/
theorem getElem?_frame_pulse (w : ControlWord) {i : Nat} {b : Byte} (hb : bytes[i]? = some b) (p : BitPos) {j : Nat}
    (hj : j < 4) :
    (frame bytes w)[32 * i + (4 * p.toNat + j)]? = (pulse (payloadBit b p) (controlBit w i p))[j]? := by
  obtain ⟨hi, -⟩ := List.getElem?_eq_some_iff.mp hb
  have hlen := length_framePulses w 0 bytes
  rw [frame, List.getElem?_append_left (by omega), getElem?_framePulses w 0 hb p hj, Nat.zero_add]

/-- The closing writes of a frame (R71). -/
theorem getElem?_frame_closing (bytes : List Byte) (w : ControlWord) (j : Nat) :
    (frame bytes w)[32 * bytes.length + j]? = closingWrites[j]? := by
  rw [frame, ← length_framePulses w 0 bytes, List.getElem?_append_right (by omega), Nat.add_sub_cancel_left]

/-- The last `n + 1` entries of a list begin with the entry that has `n` after it. -/
theorem rtake_succ_of_getElem? {α : Type} {l : List α} {n i : Nat} {e : α} (hi : i + (n + 1) = l.length)
    (he : l[i]? = some e) : l.rtake (n + 1) = e :: l.rtake n := by
  obtain ⟨hlt, rfl⟩ := List.getElem?_eq_some_iff.mp he
  rw [List.rtake, List.rtake, show l.length - (n + 1) = i by omega, show l.length - n = i + 1 by omega,
    List.drop_eq_getElem_cons hlt]

/-! ### The steps left, by the state code (R106) -/

theorem remainingSteps_sDpay (h : s.fsm = fsmSDpay) :
    remainingSteps s = 4 * (8 * (s.lenQ - s.bytePos) - s.bitPos.toNat) + 2 := by simp [remainingSteps, h]

theorem remainingSteps_sCrise (h : s.fsm = fsmSCrise) :
    remainingSteps s = 4 * (8 * (s.lenQ - s.bytePos) - s.bitPos.toNat) + 1 := by
  simp [remainingSteps, h, fsmSDpay, fsmSCrise]

theorem remainingSteps_sDctl (h : s.fsm = fsmSDctl) :
    remainingSteps s = 4 * (8 * (s.lenQ - s.bytePos) - s.bitPos.toNat) := by
  simp [remainingSteps, h, fsmSDpay, fsmSCrise, fsmSDctl]

theorem remainingSteps_sCfall (h : s.fsm = fsmSCfall) :
    remainingSteps s = 4 * (8 * (s.lenQ - s.bytePos) - s.bitPos.toNat) - 1 := by
  simp [remainingSteps, h, fsmSDpay, fsmSCrise, fsmSDctl, fsmSCfall]

theorem remainingSteps_sFclk (h : s.fsm = fsmSFclk) : remainingSteps s = 2 := by
  simp [remainingSteps, h, fsmSDpay, fsmSCrise, fsmSDctl, fsmSCfall, fsmSFclk]

theorem remainingSteps_sFdata (h : s.fsm = fsmSFdata) : remainingSteps s = 1 := by
  simp [remainingSteps, h, fsmSDpay, fsmSCrise, fsmSDctl, fsmSCfall, fsmSFclk, fsmSFdata]

theorem remainingSteps_idle (h : s.fsm = fsmIdle) : remainingSteps s = 0 := by
  simp [remainingSteps, h, fsmIdle, fsmSDpay, fsmSCrise, fsmSDctl, fsmSCfall, fsmSFclk, fsmSFdata]

@[simp] theorem remainingSteps_hostTurn (b : Bool) : remainingSteps (s.hostTurn b) = remainingSteps s := by
  simp [remainingSteps]

/-! ### A transmission in progress -/

/-- The payload of a transmission is `bytes`: the payload byte of position `i` is its entry `i`. -/
structure State.HoldsPayload (s : State) (bytes : List Byte) : Prop where
  length : bytes.length = s.lenQ
  byte : ∀ i b, bytes[i]? = some b → payloadByte { s with bytePos := i } = .ok b

theorem State.HoldsPayload.congr (h : s.HoldsPayload bytes) (h1 : u.cfg = s.cfg) (h2 : u.srcQ = s.srcQ)
    (h3 : u.pb = s.pb) (h4 : u.lenQ = s.lenQ) : u.HoldsPayload bytes where
  length := h.length.trans h4.symm
  byte i b hb := by
    rw [← h.byte i b hb]
    exact payloadByte_congr h1 h2 h3 h4 rfl

/-- A bound buffer is the payload (R44). -/
theorem holdsPayload_of_bound (hsrc : s.srcQ = .buffer) (hpb : s.pb = some (Memory.bind bytes))
    (hlen : bytes.length = s.lenQ) : s.HoldsPayload bytes :=
  ⟨hlen, fun i _ hb => payloadByte_of_bound (s := { s with bytePos := i }) hsrc hpb hlen hb⟩

/-- From the virtual source every byte is the virtual one (R45). -/
theorem holdsPayload_of_virtual (hsrc : s.srcQ = .virtual) :
    s.HoldsPayload (List.replicate s.lenQ s.cfg.virtualByte) where
  length := List.length_replicate
  byte _ _ hb := payloadByte_ok.mpr (.inl ⟨hsrc, List.eq_of_mem_replicate (List.mem_of_getElem? hb)⟩)

/-- Where a transmission stands: in a pulse, at a closing write, or over. -/
inductive State.Stage (s : State) : Prop
  | pulse (hcode : pulsing s.fsm) (hlt : s.bytePos < s.lenQ)
  | closeClock (hcode : s.fsm = fsmSFclk) (hend : s.bytePos = s.lenQ ∧ s.bitPos = 0#3)
  | closeData (hcode : s.fsm = fsmSFdata) (hend : s.bytePos = s.lenQ ∧ s.bitPos = 0#3) (hclock : s.clockQ = false)
  | ended (hcode : s.fsm = fsmIdle) (hend : s.bytePos = s.lenQ ∧ s.bitPos = 0#3) (hclock : s.clockQ = false)
      (hdata : s.dataQ = false)

/-- The block sends `bytes` under `cw`, and its trace will be `total` at the end: what it still lacks is the end of the
frame, one event for each step left. -/
structure State.Sending (s : State) (bytes : List Byte) (cw : ControlWord) (total : List Event) : Prop where
  pins : s.cfg.pinsDistinct = true
  noFault : s.faultQ = false
  word : s.cwQ = cw
  payload : s.HoldsPayload bytes
  stage : s.Stage
  traced : s.trace ++ (frame bytes cw).rtake (remainingSteps s) = total

/-- The host's turn is no part of a transmission. -/
theorem State.Sending.hostTurn (hs : s.Sending bytes cw total) (b : Bool) : (s.hostTurn b).Sending bytes cw total where
  pins := by simpa using hs.pins
  noFault := by simpa using hs.noFault
  word := by simpa using hs.word
  payload := hs.payload.congr (by simp) (by simp) (by simp) (by simp)
  stage := by
    cases hs.stage with
    | pulse hcode hlt => exact .pulse (by simpa using hcode) (by simpa using hlt)
    | closeClock hcode hend => exact .closeClock (by simpa using hcode) (by simpa using hend)
    | closeData hcode hend hclock =>
      exact .closeData (by simpa using hcode) (by simpa using hend) (by simpa using hclock)
    | ended hcode hend hclock hdata =>
      exact .ended (by simpa using hcode) (by simpa using hend) (by simpa using hclock) (by simpa using hdata)
  traced := by simpa using hs.traced

/-- The payload byte of the current position. -/
theorem State.Sending.exists_byte (hs : s.Sending bytes cw total) (hlt : s.bytePos < s.lenQ) :
    ∃ b, bytes[s.bytePos]? = some b ∧ payloadByte s = .ok b := by
  have hb := List.getElem?_eq_getElem (hs.payload.length.symm ▸ hlt)
  exact ⟨_, hb, hs.payload.byte _ _ hb⟩

/-! ### One micro-step of a transmission -/

/-- What the micro-steps leave: the configuration, the flag, what the command latched, the host's side. -/
def State.sameOperands (s u : State) : Prop :=
  u.cfg = s.cfg ∧ u.faultQ = s.faultQ ∧ u.cwQ = s.cwQ ∧ u.srcQ = s.srcQ ∧ u.pb = s.pb ∧ u.lenQ = s.lenQ ∧
    u.port = s.port ∧ u.script = s.script

/-- What one micro-step makes of a transmission: it answers a state with one step less to go, the host's side as it
was. -/
def State.Advances (s : State) (bytes : List Byte) (cw : ControlWord) (total : List Event) : Prop :=
  ∃ u, exec (decodeFsm s.fsm) s = .next u ∧ u.port = s.port ∧ u.script = s.script ∧ u.Sending bytes cw total ∧
    remainingSteps s = remainingSteps u + 1

/-- A micro-step that writes the frame's next event advances the transmission. -/
theorem State.Sending.advances_of_write (hs : s.Sending bytes cw total) {i : Nat} {e : Event}
    (hexec : exec (decodeFsm s.fsm) s = .next u) (hsame : s.sameOperands u) (htrace : u.trace = s.trace ++ [e])
    (he : (frame bytes cw)[i]? = some e) (hi : i + remainingSteps s = 32 * s.lenQ + 2)
    (hleft : remainingSteps s = remainingSteps u + 1) (hstage : u.Stage) : s.Advances bytes cw total := by
  obtain ⟨hcfg, hfault, hcw, hsrc, hpb, hlen, hport, hscript⟩ := hsame
  have hrest : (frame bytes cw).rtake (remainingSteps s) = e :: (frame bytes cw).rtake (remainingSteps u) := by
    rw [hleft]
    exact rtake_succ_of_getElem? (by rw [length_frame, hs.payload.length, ← hleft, hi]) he
  refine ⟨u, hexec, hport, hscript, ?_, hleft⟩
  exact {
    pins := by rw [hcfg]; exact hs.pins
    noFault := hfault.trans hs.noFault
    word := hcw.trans hs.word
    payload := hs.payload.congr hcfg hsrc hpb hlen
    stage := hstage
    traced := by rw [← hs.traced, hrest, htrace, List.append_assoc, List.singleton_append] }

/-- Where a transmission stands after the last micro-step of a pulse. -/
theorem stage_advance (hlt : s.bytePos < s.lenQ) : s.advance.Stage := by
  by_cases hp : s.bitPos.toNat < 7
  · rw [advance_of_lt hp]
    exact .pulse (.inl rfl) hlt
  rw [advance_of_last (by omega)]
  by_cases hk : s.bytePos + 1 < s.lenQ
  · exact .pulse (.inl (if_pos hk)) hk
  · exact .closeClock (if_neg hk) ⟨by dsimp only; omega, rfl⟩

/-- The steps left after the last micro-step of a pulse: those of the pulses that follow, and the closing writes. -/
theorem remainingSteps_advance (hlt : s.bytePos < s.lenQ) :
    remainingSteps s.advance = 4 * (8 * (s.lenQ - s.bytePos) - s.bitPos.toNat) - 2 := by
  by_cases hp : s.bitPos.toNat < 7
  · have hbit : (s.bitPos + 1#3).toNat = s.bitPos.toNat + 1 := by
      rw [BitVec.toNat_add_of_lt]
      · rfl
      · show s.bitPos.toNat + 1 < 8; omega
    rw [advance_of_lt hp, remainingSteps_sDpay rfl]
    dsimp only
    omega
  rw [advance_of_last (by omega)]
  by_cases hk : s.bytePos + 1 < s.lenQ
  · rw [remainingSteps_sDpay (if_pos hk)]
    simp only [BitVec.toNat_zero]
    omega
  · rw [remainingSteps_sFclk (if_neg hk)]
    omega

/-- The four micro-steps of a pulse make its four writes. -/
theorem State.Sending.advances_pulse (hs : s.Sending bytes cw total) (hcode : pulsing s.fsm)
    (hlt : s.bytePos < s.lenQ) : s.Advances bytes cw total := by
  obtain ⟨b, hb, hpay⟩ := hs.exists_byte hlt
  have hp := s.bitPos.isLt
  have hevent (j : Nat) (hj : j < 4) := getElem?_frame_pulse cw hb s.bitPos hj
  rcases hcode with h0 | h0 | h0 | h0
  · refine hs.advances_of_write (u := (s.lineWrite .data (payloadBit b s.bitPos)).goto fsmSCrise)
      (by rw [h0, decodeFsm_sDpay, exec, execSDpay, hpay]) (by simp [State.sameOperands]) rfl (hevent 0 (by omega))
      ?_ ?_ (.pulse (.inr (.inl rfl)) hlt)
    · rw [remainingSteps_sDpay h0]; omega
    · rw [remainingSteps_sDpay h0, remainingSteps_sCrise (goto_fsm _ _)]; rfl
  · refine hs.advances_of_write (u := (s.lineWrite .clock true).goto fsmSDctl)
      (by rw [h0, decodeFsm_sCrise, exec, execSCrise]) (by simp [State.sameOperands]) rfl (hevent 1 (by omega))
      ?_ ?_ (.pulse (.inr (.inr (.inl rfl))) hlt)
    · rw [remainingSteps_sCrise h0]; omega
    · rw [remainingSteps_sCrise h0, remainingSteps_sDctl (goto_fsm _ _)]; rfl
  · refine hs.advances_of_write (u := (s.lineWrite .data (controlBit cw s.bytePos s.bitPos)).goto fsmSCfall)
      (by rw [h0, decodeFsm_sDctl, exec, execSDctl, hs.word]) (by simp [State.sameOperands]) rfl
      (hevent 2 (by omega)) ?_ ?_ (.pulse (.inr (.inr (.inr rfl))) hlt)
    · rw [remainingSteps_sDctl h0]; omega
    · rw [remainingSteps_sDctl h0, remainingSteps_sCfall (goto_fsm _ _)]
      simp only [goto_lenQ, goto_bytePos, goto_bitPos, lineWrite_data_lenQ, lineWrite_data_bytePos,
        lineWrite_data_bitPos]
      omega
  · refine hs.advances_of_write (u := (s.lineWrite .clock false).advance)
      (by rw [h0, decodeFsm_sCfall, exec, execSCfall]) (by simp [State.sameOperands]) (by simp)
      (hevent 3 (by omega)) ?_ ?_ (stage_advance hlt)
    · rw [remainingSteps_sCfall h0]; omega
    · have hleft : remainingSteps (s.lineWrite .clock false).advance =
          4 * (8 * (s.lenQ - s.bytePos) - s.bitPos.toNat) - 2 :=
        remainingSteps_advance (s := s.lineWrite .clock false) hlt
      rw [remainingSteps_sCfall h0, hleft]; omega

/-- Every micro-step of a transmission writes the frame's next event. -/
theorem State.Sending.advances (hs : s.Sending bytes cw total) (hbusy : s.fsm ≠ fsmIdle) :
    s.Advances bytes cw total := by
  have hlen := hs.payload.length
  have hevent := getElem?_frame_closing bytes cw
  cases hs.stage with
  | pulse hcode hlt => exact hs.advances_pulse hcode hlt
  | closeClock hcode hend =>
    refine hs.advances_of_write (u := (s.lineWrite .clock false).goto fsmSFdata)
      (by rw [hcode, decodeFsm_sFclk, exec, execSFclk]) (by simp [State.sameOperands]) rfl (hevent 0) ?_ ?_
      (.closeData rfl hend rfl)
    · rw [remainingSteps_sFclk hcode, hlen]
    · rw [remainingSteps_sFclk hcode, remainingSteps_sFdata (goto_fsm _ _)]
  | closeData hcode hend hclock =>
    refine hs.advances_of_write (u := (s.lineWrite .data false).goto fsmIdle)
      (by rw [hcode, decodeFsm_sFdata, exec, execSFdata]) (by simp [State.sameOperands]) rfl (hevent 1) ?_ ?_
      (.ended rfl hend hclock rfl)
    · rw [remainingSteps_sFdata hcode, hlen]
    · rw [remainingSteps_sFdata hcode, remainingSteps_idle (goto_fsm _ _)]
  | ended hcode => exact absurd hcode hbusy

/-! ### The steps of a transmission -/

/-- A step of a transmission without reset: a micro-step that advances it, and the host's turn. -/
theorem State.Sending.step_advances (hs : s.Sending bytes cw total) (hbusy : s.fsm ≠ fsmIdle)
    (hr : s.port.rst = false) :
    ∃ u, step s = .next (u.hostTurn s.pending) ∧ u.port = s.port ∧ u.script = s.script ∧ u.Sending bytes cw total ∧
      remainingSteps s = remainingSteps u + 1 := by
  obtain ⟨u, hu, hrest⟩ := hs.advances hbusy
  refine ⟨u, ?_, hrest⟩
  rw [step_selected hs.pins hr hs.noFault, selected_busy hbusy, hu, afterStep_next]

/-- With steps left the block is busy. -/
theorem fsm_ne_idle (h : 0 < remainingSteps s) : s.fsm ≠ fsmIdle := fun hidle => by
  rw [remainingSteps_idle hidle] at h
  exact absurd h (by decide)

/-- A transmission is over exactly when no step is left. -/
theorem State.Sending.remainingSteps_eq_zero (hs : s.Sending bytes cw total) :
    remainingSteps s = 0 ↔ s.fsm = fsmIdle := by
  refine ⟨fun h => ?_, remainingSteps_idle⟩
  by_contra hbusy
  obtain ⟨u, -, -, -, -, hleft⟩ := hs.advances hbusy
  omega

/-- A countdown: where every step takes what holds with `n + 1` steps to go to what holds with `n`, so do `k` steps at
once. -/
theorem run_countdown {P : State → Nat → Prop} (hstep : ∀ s n, P s (n + 1) → ∃ t, step s = .next t ∧ P t n) {n k : Nat}
    (h : P s n) (hk : k ≤ n) : ∃ t : State, Host.Core.run Sys2Proof.core k s = .next t ∧ P t (n - k) := by
  induction k generalizing s n with
  | zero => exact ⟨s, rfl, h⟩
  | succ k ih =>
    obtain ⟨n, rfl⟩ := Nat.exists_eq_add_one.mpr (Nat.lt_of_lt_of_le k.succ_pos hk)
    obtain ⟨u, hu, hP⟩ := hstep s n h
    obtain ⟨t, ht, hP⟩ := ih hP (by omega)
    exact ⟨t, (core_run_succ hu k).trans ht, by rwa [Nat.add_sub_add_right]⟩

/-- With `n` steps to go, none of them under reset. -/
structure State.SendingFor (s : State) (bytes : List Byte) (cw : ControlWord) (total : List Event) (n : Nat) :
    Prop where
  sending : s.Sending bytes cw total
  left : remainingSteps s = n
  noReset : s.NoReset n

/-- A step without reset takes one from the steps to go. -/
theorem step_sendingFor {n : Nat} (hs : s.SendingFor bytes cw total (n + 1)) :
    ∃ t, step s = .next t ∧ t.SendingFor bytes cw total n := by
  have hn := hs.left
  obtain ⟨u, hu, hport, hscript, hsend, hleft⟩ := hs.sending.step_advances (fsm_ne_idle (by omega)) hs.noReset.1
  exact ⟨_, hu, hsend.hostTurn _, by rw [remainingSteps_hostTurn]; omega,
    noReset_hostTurn _ (noReset_congr hport hscript hs.noReset)⟩

/-- A transmission with no step left: idle, both lines 0, the trace complete. -/
theorem State.Sending.ended (hs : s.Sending bytes cw total) (hleft : remainingSteps s = 0) :
    s.trace = total ∧ s.fsm = fsmIdle ∧ s.clockQ = false ∧ s.dataQ = false ∧ s.bytePos = bytes.length ∧
      s.bitPos = 0#3 ∧ s.cwQ = cw ∧ s.faultQ = false := by
  have hidle := hs.remainingSteps_eq_zero.mp hleft
  have htraced := hs.traced
  rw [hleft, List.rtake_zero, List.append_nil] at htraced
  cases hs.stage with
  | pulse hcode => rw [hidle] at hcode; exact absurd hcode (by decide)
  | closeClock hcode => rw [hidle] at hcode; exact absurd hcode (by decide)
  | closeData hcode => rw [hidle] at hcode; exact absurd hcode (by decide)
  | ended _ hend hclock hdata =>
    exact ⟨htraced, hidle, hclock, hdata, hend.1.trans hs.payload.length.symm, hend.2, hs.word, hs.noFault⟩

/-- The run of a transmission: busy until no step is left, and then ended. -/
theorem run_sendingFor {n : Nat} (hs : s.SendingFor bytes cw total n) :
    (∀ k, k < n → ∃ u, Host.Core.run Sys2Proof.core k s = .next u ∧ u.busy = true ∧ u.faultQ = false) ∧
    ∃ t, Host.Core.run Sys2Proof.core n s = .next t ∧ t.trace = total ∧ t.fsm = fsmIdle ∧ t.clockQ = false ∧
      t.dataQ = false ∧ t.bytePos = bytes.length ∧ t.bitPos = 0#3 ∧ t.cwQ = cw ∧ t.faultQ = false := by
  have hrun {k : Nat} := run_countdown (k := k) (P := (State.SendingFor · bytes cw total ·))
    (fun _ _ => step_sendingFor) hs
  refine ⟨fun k hk => ?_, ?_⟩
  · obtain ⟨u, hu, hsend, hleft, -⟩ := hrun hk.le
    exact ⟨u, hu, decide_eq_true (fsm_ne_idle (by omega)), hsend.noFault⟩
  · obtain ⟨t, ht, hsend, hleft, -⟩ := hrun le_rfl
    exact ⟨t, ht, hsend.ended (hleft.trans n.sub_self)⟩

/-! ### The acceptance of a command -/

/-- What every acceptance leaves: the position at the start, and the first micro-step of the transmission. -/
structure State.AtStart (s : State) : Prop where
  bytePos : s.bytePos = 0
  bitPos : s.bitPos = 0#3
  fsm : s.fsm = if 0 < s.lenQ then fsmSDpay else fsmSFclk

/-- A transmission of L byte positions takes 32 L + 2 steps (R106). -/
theorem State.AtStart.remainingSteps (h : s.AtStart) : remainingSteps s = 32 * s.lenQ + 2 := by
  by_cases hlen : 0 < s.lenQ
  · rw [remainingSteps_sDpay (h.fsm.trans (if_pos hlen)), h.bytePos, h.bitPos, BitVec.toNat_zero]; omega
  · rw [remainingSteps_sFclk (h.fsm.trans (if_neg hlen))]; omega

theorem State.AtStart.stage (h : s.AtStart) : s.Stage := by
  have hpos := h.bytePos
  by_cases hlen : 0 < s.lenQ
  · exact .pulse (.inl (h.fsm.trans (if_pos hlen))) (by omega)
  · exact .closeClock (h.fsm.trans (if_neg hlen)) ⟨by omega, h.bitPos⟩

/-- At the start of a transmission the trace lacks the whole frame. -/
theorem State.AtStart.sending (h : s.AtStart) (hp : s.cfg.pinsDistinct = true) (hf : s.faultQ = false)
    (hpay : s.HoldsPayload bytes) : s.Sending bytes s.cwQ (s.trace ++ frame bytes s.cwQ) where
  pins := hp
  noFault := hf
  word := rfl
  payload := hpay
  stage := h.stage
  traced := by
    rw [h.remainingSteps, ← hpay.length, ← length_frame bytes s.cwQ, List.rtake, Nat.sub_self, List.drop_zero]

theorem atStart_acceptTransmit (cw : ControlWord) (data : List Byte) (s : State) : (acceptTransmit cw data s).AtStart :=
  ⟨rfl, rfl, rfl⟩

theorem atStart_acceptDisable (s : State) : (acceptDisable s).AtStart := ⟨rfl, rfl, rfl⟩

/-- From the step that accepts a command to the end of its transmission (R87, R88): the steps between are busy, and
after the last the frame follows the acceptance on the trace, the block idle and both lines 0. -/
theorem run_of_accept {n : Nat} (hstep : step s = .next (u.hostTurn s.pending)) (hp : u.cfg.pinsDistinct = true)
    (hf : u.faultQ = false) (hstart : u.AtStart) (hpay : u.HoldsPayload bytes) (hn : u.lenQ = n)
    (hport : u.port = s.port) (hscript : u.script = s.script) (hr : s.NoReset (1 + (32 * n + 2))) :
    (∀ k, 0 < k → k < 1 + (32 * n + 2) →
      ∃ v, Host.Core.run Sys2Proof.core k s = .next v ∧ v.busy = true ∧ v.faultQ = false) ∧
    (∃ t, Host.Core.run Sys2Proof.core (1 + (32 * n + 2)) s = .next t ∧ t.trace = u.trace ++ frame bytes u.cwQ ∧
      t.fsm = fsmIdle ∧ t.clockQ = false ∧ t.dataQ = false ∧ t.bytePos = n ∧ t.bitPos = 0#3 ∧ t.cwQ = u.cwQ ∧
      t.faultQ = false) := by
  rw [Nat.add_comm 1] at hr ⊢
  have hsend : (u.hostTurn s.pending).SendingFor bytes u.cwQ (u.trace ++ frame bytes u.cwQ) (32 * n + 2) :=
    ⟨(hstart.sending hp hf hpay).hostTurn _, by rw [remainingSteps_hostTurn, hstart.remainingSteps, hn],
      noReset_hostTurn _ (noReset_congr hport hscript hr)⟩
  obtain ⟨hbusy, hend⟩ := run_sendingFor hsend
  rw [hpay.length, hn] at hend
  refine ⟨fun k hk hlt => ?_, by rwa [core_run_succ hstep]⟩
  obtain ⟨k, rfl⟩ := Nat.exists_eq_add_one.mpr hk
  rw [core_run_succ hstep]
  exact hbusy k (by omega)

/-- An idle block with no fault and no reset is ready (R83). -/
theorem cmdReady_of_idle (h0 : s.fsm = fsmIdle) (hf : s.faultQ = false) (hr : s.port.rst = false) :
    s.cmdReady = true := by
  simp [State.cmdReady, h0, hf, hr]

/-- The step in which an idle block accepts a `TRANSMIT` (R87). -/
theorem step_accept_transmit (hp : s.cfg.pinsDistinct = true) (h0 : s.fsm = fsmIdle) (hf : s.faultQ = false)
    (hr : s.port.rst = false) (hv : s.port.cmdValid = true) (ho : cmdOp s.port.cmdWord = false)
    (hfits : s.cfg.lengthFits s.port.cmdData.length = true) :
    step s = .next ((acceptTransmit (cmdControlWord s.port.cmdWord) s.port.cmdData s).hostTurn s.pending) := by
  have hready := cmdReady_of_idle h0 hf hr
  simp [step_selected hp hr hf, selected, h0, hv, decodeCommand, ho, exec, execTransmit, presentTransmit, hready, hfits]

/-- The step in which an idle block accepts a `DISABLE` (R88). -/
theorem step_accept_disable (hp : s.cfg.pinsDistinct = true) (h0 : s.fsm = fsmIdle) (hf : s.faultQ = false)
    (hr : s.port.rst = false) (hv : s.port.cmdValid = true) (ho : cmdOp s.port.cmdWord = true) :
    step s = .next ((acceptDisable s).hostTurn s.pending) := by
  have hready := cmdReady_of_idle h0 hf hr
  simp [step_selected hp hr hf, selected, h0, hv, decodeCommand, ho, exec, execDisable, presentDisable, hready]

/-- Settles O51: the acceptance starts a transmission of the bound payload, and its run is the frame. -/
theorem transmitSendsItsFrame : Obligations.TransmitSendsItsFrame := by
  rintro s cw data n hpins h0 hf hv ho rfl rfl rfl hfits hr
  have hp : s.cfg.pinsDistinct = true := pinsDistinct_iff.mpr hpins
  have hrst : s.port.rst = false := by rw [Nat.add_comm 1] at hr; exact hr.1
  have hstep := step_accept_transmit hp h0 hf hrst hv ho hfits
  refine ⟨⟨_, core_run_succ hstep 0, by simp [cmdControlWord, fsmSDpay, fsmSFclk]⟩, ?_⟩
  obtain ⟨hbusy, t, ht, htrace, hidle, hclock, hdata, hrest⟩ :=
    run_of_accept hstep hp hf (atStart_acceptTransmit _ _ s) (holdsPayload_of_bound rfl rfl rfl) rfl rfl rfl hr
  exact ⟨hbusy, t, ht, htrace, hidle, decide_eq_false (not_not.mpr hidle), hclock, hdata, hrest⟩

/-- The byte positions of a `DISABLE`, as the statement of R88 counts them. -/
theorem disableLength_eq_ite (mode : DisableMode) : disableLength mode = if mode = .wordCycle then 4 else 0 := by
  cases mode <;> rfl

/-- Settles O52: the acceptance starts a transmission of virtual bytes, and its run is the frame. -/
theorem disableSendsItsFrame : Obligations.DisableSendsItsFrame := by
  rintro s n hpins h0 hf hv ho hn hr
  rw [← disableLength_eq_ite] at hn
  subst hn
  have hp : s.cfg.pinsDistinct = true := pinsDistinct_iff.mpr hpins
  have hrst : s.port.rst = false := by rw [Nat.add_comm 1] at hr; exact hr.1
  have hstep := step_accept_disable hp h0 hf hrst hv ho
  have hfsm : (acceptDisable s).fsm = if s.cfg.disableMode = .wordCycle then 0b001#3 else 0b101#3 := by
    rw [acceptDisable_fsm]
    cases s.cfg.disableMode <;> rfl
  refine ⟨⟨_, core_run_succ hstep 0, ?_⟩, ?_⟩
  · rw [hostTurn_fsm, hfsm]
    simp [cwDisable]
  obtain ⟨hbusy, t, ht, htrace, hidle, hclock, hdata, hpos, -, -, hfault⟩ :=
    run_of_accept hstep hp hf (atStart_acceptDisable s) (holdsPayload_of_virtual rfl) rfl rfl rfl hr
  exact ⟨hbusy, t, ht, htrace, hidle, decide_eq_false (not_not.mpr hidle), hclock, hdata, hpos, hfault⟩

/-! ### `DISABLE` beside `TRANSMIT` -/

/-- The pulses of a frame are line writes alone. -/
theorem eq_write_of_mem_framePulses {w : ControlWord} {k : Nat} {e : Event} (he : e ∈ framePulses w k bytes) :
    ∃ l v, e = .write l v := by
  induction bytes generalizing k with
  | nil => cases he
  | cons b bs ih =>
    rcases List.mem_append.mp he with he | he
    · obtain ⟨p, -, hp⟩ := List.mem_flatMap.mp he
      simp only [pulse, List.mem_cons, List.not_mem_nil, or_false] at hp
      rcases hp with rfl | rfl | rfl | rfl <;> exact ⟨_, _, rfl⟩
    · exact ih he

/-- A frame is line writes alone. -/
theorem eq_write_of_mem_frame {w : ControlWord} {e : Event} (he : e ∈ frame bytes w) : ∃ l v, e = .write l v := by
  rcases List.mem_append.mp he with he | he
  · exact eq_write_of_mem_framePulses he
  · simp only [closingWrites, List.mem_cons, List.not_mem_nil, or_false] at he
    rcases he with rfl | rfl <;> exact ⟨_, _, rfl⟩

/-- Settles O53: each command sends the frame of the same bytes under the same control word. -/
theorem disableMatchesTransmit : Obligations.DisableMatchesTransmit := by
  intro cfg zeros hpins hcase
  refine ⟨frame zeros cwDisable, fun e => eq_write_of_mem_frame, ?_⟩
  rintro s rfl h0 hf hv hr
  have hzeros : zeros = List.replicate zeros.length s.cfg.virtualByte ∧
      zeros.length = (if s.cfg.disableMode = .wordCycle then 4 else 0) ∧ s.cfg.lengthFits zeros.length = true := by
    rcases hcase with ⟨hmode, rfl⟩ | ⟨hmode, hbyte, rfl, hfits⟩
    · simp [hmode, lengthFits_zero]
    · simp [hmode, hbyte, hfits, List.replicate]
  obtain ⟨hbytes, hlen, hfits⟩ := hzeros
  refine ⟨fun ho => ?_, fun hw hd => ?_⟩
  · obtain ⟨-, -, t, ht, htrace, -, -, hclock, hdata, -⟩ := disableSendsItsFrame s _ hpins h0 hf hv ho hlen hr
    rw [← hbytes] at htrace
    exact ⟨t, ht, htrace, hclock, hdata⟩
  · obtain ⟨-, -, t, ht, htrace, -⟩ := transmitSendsItsFrame s cwDisable zeros _ hpins h0 hf hv (by rw [hw]; decide)
      (by rw [hw]; decide) hd rfl hfits hr
    exact ⟨t, ht, htrace⟩

/-! ### A held command has no effect -/

/-- The same state with other levels on the command port. -/
def State.withPort (s : State) (p : Port) : State := { s with port := p }

theorem withPort_advance (s : State) (p : Port) : (s.withPort p).advance = s.advance.withPort p := by
  by_cases hp : s.bitPos.toNat < 7
  · rw [advance_of_lt hp, advance_of_lt (s := s.withPort p) hp]; rfl
  · have hlast : s.bitPos.toNat = 7 := by omega
    rw [advance_of_last hlast, advance_of_last (s := s.withPort p) hlast]; rfl

/-- The host's turn changes the host's side alone. -/
theorem hostTurn_eq (s : State) (b : Bool) : ∃ p ps, s.hostTurn b = { s with port := p, script := ps } := by
  cases hs : s.script with
  | nil => exact ⟨s.port, [], by rw [hostTurn_nil s b hs, ← hs]⟩
  | cons p ps => exact ⟨_, ps, hostTurn_cons s b hs⟩

/-- Host turns from two ports leave the same block. -/
theorem sameBlock_hostTurn (s : State) (p : Port) (b b' : Bool) :
    (s.hostTurn b).sameBlock ((s.withPort p).hostTurn b') := by
  obtain ⟨q, qs, hq⟩ := hostTurn_eq s b
  obtain ⟨r, rs, hr⟩ := hostTurn_eq (s.withPort p) b'
  rw [hq, hr]
  rfl

/-- A micro-step does not read the command port. -/
theorem exec_decodeFsm_withPort (hbusy : s.fsm ≠ fsmIdle) (h : exec (decodeFsm s.fsm) s = .next u) (p : Port) :
    exec (decodeFsm s.fsm) (s.withPort p) = .next (u.withPort p) := by
  rcases fsm_cases s.fsm with h0 | h0 | h0 | h0 | h0 | h0 | h0 | h0
  · exact absurd h0 hbusy
  all_goals rw [h0] at h ⊢
  · have hpay : payloadByte (s.withPort p) = payloadByte s := payloadByte_congr rfl rfl rfl rfl rfl
    simp only [decodeFsm_sDpay, exec, execSDpay, hpay] at h ⊢
    cases hb : payloadByte s with
    | error f => rw [hb] at h; cases h
    | ok b => rw [hb] at h; cases h; rfl
  · cases h; rfl
  · cases h; rfl
  · cases h; exact congrArg _ (withPort_advance (s.lineWrite .clock false) p)
  · cases h; rfl
  · cases h; rfl
  · cases h; rfl

/-- A port is not ready in a reset, in a fault, and while the block is busy (R83). -/
theorem cmdReady_eq_false : s.cmdReady = false ↔ s.fsm ≠ fsmIdle ∨ s.faultQ = true ∨ s.port.rst = true := by
  cases hf : s.faultQ <;> cases hr : s.port.rst <;> simp [State.cmdReady, hf, hr]

/-- A block whose port is not ready takes the same step whatever command is presented (R85). -/
theorem step_withPort (hready : s.cmdReady = false) (h : step s = .next t) {p : Port} (hp : p.rst = s.port.rst) :
    ∃ t', step (s.withPort p) = .next t' ∧ t.sameBlock t' := by
  obtain ⟨hpins, -⟩ := step_cases h
  by_cases hr : s.port.rst = true
  · rw [step_reset hpins hr] at h
    cases h
    exact ⟨_, step_reset (s := s.withPort p) hpins (hp.trans hr), sameBlock_hostTurn (resetTransition s) p _ _⟩
  have hr' := Bool.not_eq_true _ ▸ hr
  by_cases hf : s.faultQ = true
  · rw [step_faulted hpins hr' hf] at h
    cases h
    exact ⟨_, step_faulted (s := s.withPort p) hpins (hp.trans hr') hf, sameBlock_hostTurn s p _ _⟩
  have hf' := Bool.not_eq_true _ ▸ hf
  have hbusy : s.fsm ≠ fsmIdle := by simpa [hf, hr] using cmdReady_eq_false.mp hready
  rw [step_selected hpins hr' hf', selected_busy hbusy] at h
  obtain ⟨u, hu, rfl⟩ := afterStep_eq_next.mp h
  refine ⟨_, ?_, sameBlock_hostTurn u p _ (s.withPort p).pending⟩
  rw [step_selected (s := s.withPort p) hpins (hp.trans hr') hf', selected_busy (s := s.withPort p) hbusy]
  exact congrArg _ (exec_decodeFsm_withPort hbusy hu p)

/-! ### A held command is not dropped -/

/-- The host's side of a step: the block leaves it to the host's turn. -/
theorem step_hostTurn (h : step s = .next t) :
    ∃ u : State, t = u.hostTurn s.pending ∧ u.port = s.port ∧ u.script = s.script := by
  obtain ⟨-, u, rfl, ⟨-, rfl⟩ | ⟨-, -, rfl⟩ | ⟨-, -, hrun⟩⟩ := step_cases h
  · exact ⟨_, rfl, rfl, rfl⟩
  · exact ⟨_, rfl, rfl, rfl⟩
  · refine ⟨u, rfl, ?_⟩
    rcases hrun with ⟨-, -, rfl⟩ | ⟨-, -, -, rfl⟩ | ⟨-, -, -, -, rfl⟩ | ⟨-, b, -, rfl⟩ | ⟨-, rfl⟩ |
      ⟨-, rfl⟩ | ⟨-, rfl⟩ | ⟨-, rfl⟩ | ⟨-, rfl⟩ | ⟨-, rfl⟩
    all_goals simp

/-- A pending command that is still presented after the host's turn is the same command (R92 duty 4). -/
theorem hostTurn_command (h : (s.hostTurn true).port.cmdValid = true) :
    (s.hostTurn true).port.cmdWord = s.port.cmdWord ∧ (s.hostTurn true).port.cmdData = s.port.cmdData := by
  cases hs : s.script with
  | nil => rw [hostTurn_nil s true hs]; exact ⟨rfl, rfl⟩
  | cons p ps =>
    rw [hostTurn_cons s true hs] at h ⊢
    exact held_command s.port p (by simpa using h)

/-- Next levels that present a command under the same reset are held as the levels before. -/
theorem held_eq_self {old p : Port} (ho : old.cmdValid = true) (hp : p.cmdValid = true) (hr : p.rst = old.rst) :
    old.held p = old := by
  rw [Port.held, if_pos hp]
  cases old
  cases p
  cases ho
  cases hp
  cases hr
  rfl

/-- A host that holds its command over `n + 1` turns drives the same levels after one, and holds them over `n`. -/
theorem portHeld_hostTurn {n : Nat} (hv : s.port.cmdValid = true) (hr : s.port.rst = false) (h : s.PortHeld (n + 1)) :
    (s.hostTurn true).port = s.port ∧ (s.hostTurn true).PortHeld n := by
  cases hs : s.script with
  | nil => rw [hostTurn_nil s true hs]; exact ⟨rfl, by simp [State.PortHeld, hs]⟩
  | cons p ps =>
    unfold State.PortHeld at h
    rw [hs, List.take_succ_cons] at h
    obtain ⟨hpv, hpr⟩ := h p (by simp)
    rw [hostTurn_cons s true hs]
    exact ⟨held_eq_self hv hpv (hpr.trans hr.symm), fun q hq => h q (List.mem_cons_of_mem p hq)⟩

/-! ### A held command is accepted -/

/-- A state of the invariant that is not idle is in a transmission (R26, R39, R42). -/
theorem State.Inv.exists_sending (hs : s.Inv) (hp : s.cfg.pinsDistinct = true) (hbusy : s.fsm ≠ fsmIdle) :
    ∃ bytes total, s.Sending bytes s.cwQ total := by
  have hpay : ∃ bytes, s.HoldsPayload bytes := by
    cases hsrc : s.srcQ with
    | buffer =>
      obtain ⟨bytes, hpb, hlen⟩ := hs.bound hbusy hsrc
      exact ⟨bytes, holdsPayload_of_bound hsrc hpb hlen⟩
    | virtual => exact ⟨_, holdsPayload_of_virtual hsrc⟩
  obtain ⟨bytes, hpay⟩ := hpay
  have hstage : s.Stage := by
    by_cases hcode : pulsing s.fsm
    · exact .pulse hcode (hs.inRange hcode)
    have hend := hs.ended hcode
    rcases fsm_cases s.fsm with h0 | h0 | h0 | h0 | h0 | h0 | h0 | h0
    · exact absurd h0 hbusy
    iterate 4 simp [pulsing, h0] at hcode
    · exact .closeClock h0 hend
    · exact .closeData h0 hend (hs.clockQ_eq_false (by rw [h0]; decide) (by rw [h0]; decide))
    · exact absurd h0 hs.notReserved
  exact ⟨bytes, _, hp, hs.noFault, rfl, hpay, hstage, rfl⟩

/-- With `n` steps of a transmission to go, the host holding the levels `p` over them. -/
structure State.HeldFor (s : State) (p : Port) (bytes : List Byte) (cw : ControlWord) (total : List Event) (n : Nat) :
    Prop where
  sending : s.Sending bytes cw total
  left : remainingSteps s = n
  port : s.port = p
  held : s.PortHeld n

/-- A step takes one from the steps to go, and the levels are still held. -/
theorem step_heldFor {p : Port} (hv : p.cmdValid = true) (hr : p.rst = false) {n : Nat}
    (hs : s.HeldFor p bytes cw total (n + 1)) : ∃ t, step s = .next t ∧ t.HeldFor p bytes cw total n := by
  have hn := hs.left
  obtain rfl := hs.port
  have hbusy : s.fsm ≠ fsmIdle := fsm_ne_idle (by omega)
  have hpending : s.pending = true := by simp [State.pending, hv, cmdReady_eq_false.mpr (.inl hbusy)]
  obtain ⟨u, hu, hport, hscript, hsend, hleft⟩ := hs.sending.step_advances hbusy hr
  have hheld : u.PortHeld (n + 1) := by unfold State.PortHeld; rw [hscript]; exact hs.held
  obtain ⟨hport', hheld'⟩ := portHeld_hostTurn (hport ▸ hv) (hport ▸ hr) hheld
  rw [hpending] at hu
  exact ⟨_, hu, hsend.hostTurn true, by rw [remainingSteps_hostTurn]; omega, hport'.trans hport, hheld'⟩

/-- An idle block runs the command on its port (R84). -/
theorem accepts_of_idle (hp : s.cfg.pinsDistinct = true) (h0 : s.fsm = fsmIdle) (hf : s.faultQ = false)
    (hv : s.port.cmdValid = true) (hr : s.port.rst = false) :
    s.accepts = true ∧ step s = afterStep false (exec (decode (.command s.port.cmdWord s.port.cmdData)) s) := by
  have hready := cmdReady_of_idle h0 hf hr
  have hsel : selected s = decode (.command s.port.cmdWord s.port.cmdData) := if_pos ⟨h0, hv⟩
  exact ⟨by simp [State.accepts, hv, hready], by rw [step_selected hp hr hf, hsel]; simp [State.pending, hready]⟩

/-- A command held over a transmission finds the port not ready in each of its steps, and is accepted right after. -/
theorem run_heldFor {p : Port} (hv : p.cmdValid = true) (hr : p.rst = false) {n : Nat}
    (hs : s.HeldFor p bytes cw total n) :
    (∀ k, k < n → ∃ u, Host.Core.run Sys2Proof.core k s = .next u ∧ u.cmdReady = false ∧ u.port = p) ∧
    ∃ u, Host.Core.run Sys2Proof.core n s = .next u ∧ u.accepts = true ∧ u.port = p ∧
      step u = afterStep false (exec (decode (.command p.cmdWord p.cmdData)) u) := by
  have hrun {k : Nat} := run_countdown (k := k) (P := (State.HeldFor · p bytes cw total ·))
    (fun _ _ => step_heldFor hv hr) hs
  refine ⟨fun k hk => ?_, ?_⟩
  · obtain ⟨u, hu, -, hleft, hport, -⟩ := hrun hk.le
    exact ⟨u, hu, cmdReady_eq_false.mpr (.inl (fsm_ne_idle (by omega))), hport⟩
  · obtain ⟨u, hu, hsend, hleft, rfl, -⟩ := hrun le_rfl
    obtain ⟨-, hidle, -⟩ := hsend.ended (hleft.trans n.sub_self)
    obtain ⟨haccepts, hstep⟩ := accepts_of_idle hsend.pins hidle hsend.noFault hv hr
    exact ⟨u, hu, haccepts, rfl, hstep⟩

/-- Settles O21: a port that is not ready is not read, the host's turn keeps a pending command, and the levels held
over a transmission are still there when it ends. -/
theorem heldCommandIsAcceptedWhenReady : Obligations.HeldCommandIsAcceptedWhenReady := by
  refine ⟨fun s t _ hready h => step_withPort hready h rfl, fun s t hv hready h hv' => ?_,
    fun s hs hpins hv hr hheld => ?_⟩
  · obtain ⟨u, rfl, hport, -⟩ := step_hostTurn h
    have hpending : s.pending = true := by simp [State.pending, hv, hready]
    rw [hpending] at hv' ⊢
    rw [← hport]
    exact hostTurn_command hv'
  · have hp : s.cfg.pinsDistinct = true := pinsDistinct_iff.mpr hpins
    by_cases h0 : s.fsm = fsmIdle
    · obtain ⟨haccepts, hstep⟩ := accepts_of_idle hp h0 hs.noFault hv hr
      rw [remainingSteps_idle h0]
      exact ⟨fun n hn => absurd hn n.not_lt_zero, s, rfl, haccepts, rfl, hstep⟩
    · obtain ⟨bytes, total, hsend⟩ := hs.exists_sending hp h0
      exact run_heldFor hv hr ⟨hsend, rfl, rfl, hheld⟩

end Sys2Proof.Machine

/-! The micro-steps, the next-state function and the end of a transmission (41_sequencer.md R97 to R106). -/

namespace Sys2Proof.Machine

variable {s t : State}

/-! ### The payload write -/

/-- R42 by the state code: CLOCK is low outside the two codes. -/
theorem State.Inv.clockQ_low_of_code {c : FsmCode} (hs : s.Inv) (hc : s.fsm = c)
    (hlow : c ≠ fsmSDctl ∧ c ≠ fsmSCfall) : s.clockQ = false := by
  subst hc
  exact hs.clockQ_eq_false hlow.1 hlow.2

/-- `S_DPAY` with a readable payload byte (R97). -/
theorem exec_sDpay {b : Byte} (hb : payloadByte s = .ok b) :
    exec .sDpay s = .next ((s.lineWrite .data (payloadBit b s.bitPos)).goto fsmSCrise) := by
  rw [exec, execSDpay, hb]

/-- Settles O24: the payload byte is the buffer's or the virtual one, and the invariant holds the buffer's in reach. -/
theorem payloadStepWritesThePayloadBit : Obligations.PayloadStepWritesThePayloadBit := by
  refine ⟨fun s m b hsrc hpb hlt hread => exec_sDpay (payloadByte_ok.mpr (.inr ⟨hsrc, m, hpb, hlt, hread⟩)),
    fun s hsrc => exec_sDpay (payloadByte_ok.mpr (.inl ⟨hsrc, rfl⟩)), fun s hs h1 => ?_⟩
  have hlt : s.bytePos < s.lenQ := hs.inRange (.inl h1)
  refine ⟨hs.clockQ_low_of_code h1 (by decide), hlt, fun hsrc => ?_⟩
  obtain ⟨bytes, hpb, hlen⟩ := hs.bound (by rw [h1]; decide) hsrc
  exact ⟨_, _, hpb, (read_bind bytes _).trans (List.getElem?_eq_getElem (hlen.symm ▸ hlt))⟩

/-! ### The pulse -/

/-- Settles O25: CLOCK is low in `S_CRISE` by the invariant. -/
theorem clockRiseStepRaisesClock : Obligations.ClockRiseStepRaisesClock := by
  exact fun s => ⟨rfl, fun hs h2 => hs.clockQ_low_of_code h2 (by decide)⟩

/-- Without a fault, a step arrives in `S_DCTL` from another code only by the rising edge of `S_CRISE` (R105). -/
theorem of_step_fsm_sDctl (h : step s = .next t) (hf : s.faultQ = false) (h3 : s.fsm ≠ fsmSDctl)
    (ht : t.fsm = fsmSDctl) : t.trace = s.trace ++ [.write .clock true] := by
  obtain ⟨-, u, rfl, ⟨-, rfl⟩ | ⟨-, hf', -⟩ | ⟨-, -, hrun⟩⟩ := step_cases h <;> rw [hostTurn_fsm] at ht
  · exact absurd ht (by decide : fsmIdle ≠ fsmSDctl)
  · simp [hf] at hf'
  · have hstart (c : Prop) [Decidable c] : (if c then fsmSDpay else fsmSFclk) ≠ fsmSDctl := by split <;> decide
    rcases hrun with ⟨-, -, rfl⟩ | ⟨-, -, -, rfl⟩ | ⟨-, -, -, -, rfl⟩ | ⟨-, b, -, rfl⟩ | ⟨-, rfl⟩ |
      ⟨-, rfl⟩ | ⟨-, rfl⟩ | ⟨-, rfl⟩ | ⟨-, rfl⟩ | ⟨-, rfl⟩
    · exact absurd ht h3
    · exact absurd ht (hstart _)
    · exact absurd ht (hstart _)
    · exact absurd ht (by decide : fsmSCrise ≠ fsmSDctl)
    · simp
    · exact absurd ht (by decide : fsmSCfall ≠ fsmSDctl)
    · rcases advance_fsm (s.lineWrite .clock false) with h1 | h1 <;> exact absurd (h1.symm.trans ht) (by decide)
    · exact absurd ht (by decide : fsmSFdata ≠ fsmSDctl)
    · exact absurd ht (by decide : fsmIdle ≠ fsmSDctl)
    · exact absurd ht h3

/-- Settles O26: the index is in range, CLOCK is high by the invariant, and `S_CRISE` alone leads here. -/
theorem controlStepWritesTheControlBit : Obligations.ControlStepWritesTheControlBit := by
  exact fun s => ⟨rfl, by omega, fun hs h3 => hs.clockHigh.mpr (.inl h3), fun r => of_step_fsm_sDctl⟩

/-- The next bit position does not wrap inside a byte. -/
theorem toNat_bitPos_add_one {p : BitPos} (h : p.toNat < 7) : (p + 1#3).toNat = p.toNat + 1 :=
  BitVec.toNat_add_of_lt (show p.toNat + 1 < 8 by omega)

/-- Settles O27: inside a byte the bit position advances, at its end the byte position; by the invariant CLOCK is high
and the byte position below the length. -/
theorem clockFallStepAdvancesThePosition : Obligations.ClockFallStepAdvancesThePosition := by
  refine fun s => ⟨fun hlt => ?_, fun hlast => ?_, fun hs h4 => ⟨hs.clockHigh.mpr (.inr h4), fun _ hend => ?_⟩⟩
  · have hbit : BitVec.ofNat 3 (s.bitPos.toNat + 1) = s.bitPos + 1#3 :=
      BitVec.eq_of_toNat_eq (by rw [toNat_bitPos_add_one hlt, BitVec.toNat_ofNat]; omega)
    rw [exec, execSCfall, advance_of_lt (s := s.lineWrite .clock false) hlt, hbit]
    rfl
  · rw [exec, execSCfall, advance_of_last (s := s.lineWrite .clock false) hlast]
    rfl
  · have hlt : s.bytePos < s.lenQ := hs.inRange (.inr (.inr (.inr h4)))
    omega

/-! ### The closing writes -/

/-- Settles O28: CLOCK is low in `S_FCLK` by the invariant. -/
theorem finalClockStepForcesClockLow : Obligations.FinalClockStepForcesClockLow := by
  exact fun s => ⟨rfl, fun hs h5 => hs.clockQ_low_of_code h5 (by decide)⟩

/-- Settles O29: by the invariant CLOCK is low in `S_FDATA` and DATA holds the last control bit. -/
theorem finalDataStepForcesDataLow : Obligations.FinalDataStepForcesDataLow := by
  refine fun s => ⟨⟨_, rfl, rfl, rfl⟩, fun hs h6 => ?_⟩
  have hdata : s.dataQ = s.lastControlBit := hs.lastHeld (.inr h6)
  refine ⟨hs.clockQ_low_of_code h6 (by decide), fun hlen => ?_, fun hlen => ?_⟩
  · rw [hdata, State.lastControlBit, if_pos hlen]
  · rw [hdata, State.lastControlBit, if_neg (by omega)]

/-! ### The next-state function -/

/-- The host's turn leaves the start of a transmission. -/
theorem State.AtStart.hostTurn (h : s.AtStart) (b : Bool) : (s.hostTurn b).AtStart :=
  ⟨by simpa using h.bytePos, by simpa using h.bitPos, by simpa using h.fsm⟩

/-- A port that accepts is idle and ready, with a command on it (R84). -/
theorem accepts_iff :
    s.accepts = true ↔ s.port.cmdValid = true ∧ s.fsm = fsmIdle ∧ s.faultQ = false ∧ s.port.rst = false := by
  simp [State.accepts, State.cmdReady, and_assoc]

/-- The step that accepts a command ends at the start of its transmission (R105). -/
theorem atStart_of_step_accepts (h : step s = .next t) (hacc : s.accepts = true) : t.AtStart := by
  obtain ⟨hv, h0, hf, hr⟩ := accepts_iff.mp hacc
  obtain ⟨-, u, rfl, ⟨hr', -⟩ | ⟨-, hf', -⟩ | ⟨-, -, hrun⟩⟩ := step_cases h
  · simp [hr] at hr'
  · simp [hf] at hf'
  · rcases hrun with ⟨-, hv', -⟩ | ⟨-, -, -, rfl⟩ | ⟨-, -, -, -, rfl⟩ | hbusy
    · simp [hv] at hv'
    · exact (atStart_acceptDisable s).hostTurn _
    · exact (atStart_acceptTransmit _ _ s).hostTurn _
    · simp [h0, fsmIdle, fsmSDpay, fsmSCrise, fsmSDctl, fsmSCfall, fsmSFclk, fsmSFdata, fsmReserved] at hbusy

/-- Without reset or fault, a step outside `IDLE` is the micro-step of the state code and the host's turn. -/
theorem exec_of_step_busy (h : step s = .next t) (hr : s.port.rst = false) (hf : s.faultQ = false)
    (hbusy : s.fsm ≠ fsmIdle) : ∃ u, exec (decodeFsm s.fsm) s = .next u ∧ t = u.hostTurn s.pending := by
  obtain ⟨hp, -⟩ := step_cases h
  rw [step_selected hp hr hf, selected_busy hbusy] at h
  exact afterStep_eq_next.mp h

/-- Where FSM, the position and the flag go in a step outside `IDLE`: where the micro-step takes them. -/
theorem step_position {c : FsmCode} {u : State} (h : step s = .next t) (hr : s.port.rst = false)
    (hf : s.faultQ = false) (hc : s.fsm = c) (hbusy : c ≠ fsmIdle) (hu : exec (decodeFsm c) s = .next u) :
    (t.fsm = u.fsm ∧ t.bytePos = u.bytePos ∧ t.bitPos = u.bitPos) ∧ t.faultQ = u.faultQ := by
  subst hc
  obtain ⟨v, hv, rfl⟩ := exec_of_step_busy h hr hf hbusy
  cases hu.symm.trans hv
  simp

/-- `IDLE` with no command presented: the host's turn alone (R96). -/
theorem step_idle_without_command (hp : s.cfg.pinsDistinct = true) (hr : s.port.rst = false)
    (hf : s.faultQ = false) (h0 : s.fsm = fsmIdle) (hv : s.port.cmdValid = false) :
    step s = .next (s.hostTurn s.pending) := by
  have hsel : selected s = .idle := by simp [selected, h0, hv]
  have hexec : exec .idle s = .next s := by simp [exec, execIdle, hv]
  rw [step_selected hp hr hf, hsel, hexec, afterStep_next]

/-- Settles O11: reset and `IDLE` by their steps, every other code by its micro-step. -/
theorem nextStateTable : Obligations.NextStateTable := by
  intro s t h
  obtain ⟨hp, -⟩ := step_cases h
  refine ⟨fun hr => ?_, fun hr hf => ?_⟩
  · rw [step_reset hp hr] at h
    cases h
    simp [fsmIdle]
  have hpos {c : FsmCode} {u : State} := step_position (c := c) (u := u) h hr hf
  have hwrap (h4 : s.fsm = fsmSCfall) (hlast : s.bitPos.toNat = 7) :=
    (hpos h4 (by decide) (congrArg Host.Outcome.next (advance_of_last (s := s.lineWrite .clock false) hlast))).1
  refine ⟨fun h0 hv => ?_, fun h0 hv => ?_, fun h1 => ?_, fun h2 => (hpos h2 (by decide) rfl).1,
    fun h3 => (hpos h3 (by decide) rfl).1, fun h4 hlt => ?_, fun h4 hlast hk => ?_, fun h4 hlast hk => ?_,
    fun h5 => (hpos h5 (by decide) rfl).1, fun h6 => (hpos h6 (by decide) rfl).1, fun h7 => ?_⟩
  · obtain ⟨hbyte, hbit, hfsm⟩ := atStart_of_step_accepts h (accepts_iff.mpr ⟨hv, h0, hf, hr⟩)
    exact ⟨hbyte, hbit, fun hlen => hfsm.trans (if_pos hlen), fun hlen => hfsm.trans (if_neg (by omega))⟩
  · rw [step_idle_without_command hp hr hf h0 hv] at h
    cases h
    simp [h0]
  · obtain ⟨-, -, -, hwrites⟩ := dataLineWriters s t h
    obtain ⟨hpay, -⟩ := hwrites hr hf
    obtain ⟨b, hb, -⟩ := hpay h1
    exact (hpos h1 (by decide) (exec_sDpay hb)).1
  · have hadv := advance_of_lt (s := s.lineWrite .clock false) hlt
    obtain ⟨⟨hfsm, hbyte, hbit⟩, -⟩ := hpos h4 (by decide) (congrArg Host.Outcome.next hadv)
    exact ⟨hfsm, hbyte, (congrArg BitVec.toNat hbit).trans (toNat_bitPos_add_one hlt)⟩
  · obtain ⟨hfsm, hrest⟩ := hwrap h4 hlast
    exact ⟨hfsm.trans (if_pos hk), hrest⟩
  · obtain ⟨hfsm, hrest⟩ := hwrap h4 hlast
    exact ⟨hfsm.trans (if_neg (by simpa using hk)), hrest⟩
  · obtain ⟨⟨-, hrest⟩, hfault⟩ := hpos h7 (by decide) rfl
    exact ⟨hfault, hrest⟩

/-! ### The end of a transmission -/

/-- Settles O54: in `IDLE` nothing is left; outside it the invariant gives a transmission in progress, and its run is
known. An acceptance ends at the start of a transmission, whose steps are known. -/
theorem transmissionEndsAfterItsSteps : Obligations.TransmissionEndsAfterItsSteps := by
  refine ⟨fun s hs hpins hr => ?_, fun s t h _ hacc => (atStart_of_step_accepts h hacc).remainingSteps⟩
  by_cases h0 : s.fsm = fsmIdle
  · have hclock : s.clockQ = false := hs.clockQ_low_of_code h0 (by decide)
    obtain ⟨hend, -⟩ := hs.ended (by rw [h0]; decide)
    rw [remainingSteps_idle h0]
    exact ⟨fun k hk => absurd hk k.not_lt_zero, s, rfl, h0, hclock, hs.idleData h0, hend, hs.noFault⟩
  · obtain ⟨bytes, total, hsend⟩ := hs.exists_sending (pinsDistinct_iff.mpr hpins) h0
    obtain ⟨hbusy, t, ht, -, hidle, hclock, hdata, hpos, -, -, hfault⟩ := run_sendingFor ⟨hsend, rfl, hr⟩
    refine ⟨fun k hk => ?_, t, ht, hidle, hclock, hdata, hpos.trans hsend.payload.length, hfault⟩
    obtain ⟨u, hu, hub, -⟩ := hbusy k hk
    exact ⟨u, hu, hub⟩

end Sys2Proof.Machine

/-! What a frame delivers: its counts, the samples at the CLOCK edges and the level changes (41_sequencer.md R108 to
R111, R115). -/

namespace Sys2Proof.Machine

variable {v : Level} {l : Line} {es : List Event}

/-! ### The samples at the rising edges -/

/-- The rising-edge samples of a byte's pulses are its bits, whatever follows. -/
theorem riseFrom_bytePulses (d : Level) (w : ControlWord) (k : Nat) (b : Byte) (es : List Event) :
    riseFrom false d (bytePulses w k b ++ es) = byteBits b ++ riseFrom false (controlBit w k 7#3) es := rfl

/-- The rising-edge samples of a frame's pulses and the closing writes, from CLOCK low. -/
theorem riseFrom_framePulses (d : Level) (w : ControlWord) (k : Nat) (bytes : List Byte) :
    riseFrom false d (framePulses w k bytes ++ closingWrites) = payloadBits bytes := by
  induction bytes generalizing d k with
  | nil => rfl
  | cons b bs ih => rw [framePulses, List.append_assoc, riseFrom_bytePulses, ih]; rfl

/-- A payload has eight bits for each byte. -/
theorem length_payloadBits (bytes : List Byte) : (payloadBits bytes).length = 8 * bytes.length := by
  have hbyte (b : Byte) : (byteBits b).length = 8 := rfl
  simp [payloadBits, List.length_flatMap, hbyte, Nat.mul_comm]

/-- Settles O56: each byte's pulses deliver its bits, and the closing writes make no rising edge. -/
theorem risingEdgesGiveThePayload : Obligations.RisingEdgesGiveThePayload := by
  intro bytes w
  have hrise : rise (frame bytes w) = payloadBits bytes := riseFrom_framePulses false w 0 bytes
  exact ⟨hrise, by rw [hrise, length_payloadBits]⟩

/-! ### The samples at the falling edges -/

/-- The falling-edge samples of a byte's pulses are its control bits, whatever follows. -/
theorem fallFrom_bytePulses (d : Level) (w : ControlWord) (k : Nat) (b : Byte) (es : List Event) :
    fallFrom false d (bytePulses w k b ++ es) =
      (bitPositions.map (controlBit w k)).map (fun c => [c]) ++ fallFrom false (controlBit w k 7#3) es := rfl

/-- The control bits of byte position `k` are those of the endless repetition from bit `8 k` on (R72, R111). -/
theorem map_controlBit (w : ControlWord) (k : Nat) :
    bitPositions.map (controlBit w k) = (List.range' (8 * k) 8).map fun i => w.getLsbD (31 - i % 32) := by
  have hpos : List.range' (8 * k) 8 = bitPositions.map fun p => 8 * k + p.toNat := rfl
  have hindex (p : BitPos) : controlIndex k p = 31 - (8 * k + p.toNat) % 32 := by unfold controlIndex; omega
  rw [hpos, List.map_map]
  exact List.map_congr_left fun p _ => congrArg w.getLsbD (hindex p)

/-- The falling-edge samples of a frame's pulses and the closing writes, from CLOCK low. -/
theorem fallFrom_framePulses (d : Level) (w : ControlWord) (k : Nat) (bytes : List Byte) :
    fallFrom false d (framePulses w k bytes ++ closingWrites) =
      ((List.range' (8 * k) (8 * bytes.length)).map fun i => w.getLsbD (31 - i % 32)).map fun c => [c] := by
  induction bytes generalizing d k with
  | nil => rfl
  | cons b bs ih =>
    have hsplit : List.range' (8 * k) (8 * (b :: bs).length) =
        List.range' (8 * k) 8 ++ List.range' (8 * (k + 1)) (8 * bs.length) := by
      rw [Nat.mul_succ, List.range'_append_1, List.length_cons, Nat.mul_succ, Nat.add_comm 8]
    rw [framePulses, List.append_assoc, fallFrom_bytePulses, ih, map_controlBit, hsplit, List.map_append,
      List.map_append]

theorem fallSamples_frame (bytes : List Byte) (w : ControlWord) :
    fallSamples (frame bytes w) = (controlStream w (8 * bytes.length)).map fun c => [c] := by
  rw [controlStream, List.range_eq_range']
  exact fallFrom_framePulses false w 0 bytes

/-- Within the first copy the repetition is the word itself. -/
theorem controlStream_of_le (w : ControlWord) {n : Nat} (hn : n ≤ 32) :
    controlStream w n = (List.range n).map fun i => w.getLsbD (31 - i) :=
  List.map_congr_left fun i hi => by rw [Nat.mod_eq_of_lt ((List.mem_range.mp hi).trans_le hn)]

/-- After 32 bits the repetition starts again. -/
theorem controlStream_add (w : ControlWord) (n : Nat) :
    controlStream w (32 + n) = controlStream w 32 ++ controlStream w n := by
  simp [controlStream, List.range_add, Function.comp_def]

/-- The repetition is whole copies of the word and a truncated one. -/
theorem controlStream_copies (w : ControlWord) (q n : Nat) :
    controlStream w (32 * q + n) = (List.replicate q (controlStream w 32)).flatten ++ controlStream w n := by
  induction q with
  | zero => simp
  | succ q ih =>
    rw [Nat.mul_succ, Nat.add_right_comm, Nat.add_comm, controlStream_add, ih, List.replicate_succ,
      List.flatten_cons, List.append_assoc]

/-- Settles O57: each byte's pulses deliver its control bits, four bytes a whole copy of the word. -/
theorem fallingEdgesGiveTheControlWord : Obligations.FallingEdgesGiveTheControlWord := by
  intro bytes w
  have hlen : 8 * bytes.length = 32 * (bytes.length / 4) + 8 * (bytes.length % 4) := by omega
  refine ⟨fallSamples_frame bytes w, ?_⟩
  rw [hlen, controlStream_copies, controlStream_of_le w le_rfl, controlStream_of_le w (by omega)]

/-! ### The counts -/

theorem writesTo_append (l : Line) (es fs : List Event) : writesTo l (es ++ fs) = writesTo l es ++ writesTo l fs := by
  induction es with
  | nil => rfl
  | cons e es ih =>
    rcases e with ⟨l', v⟩ | _ | _
    · by_cases hl : l' = l <;> simp [writesTo, hl, ih]
    · exact ih
    · exact ih

/-- A byte's pulses write each line sixteen times. -/
theorem length_writesTo_bytePulses (l : Line) (w : ControlWord) (k : Nat) (b : Byte) :
    (writesTo l (bytePulses w k b)).length = 16 := by
  cases l <;> rfl

theorem length_writesTo_framePulses (l : Line) (w : ControlWord) (k : Nat) (bytes : List Byte) :
    (writesTo l (framePulses w k bytes)).length = 16 * bytes.length := by
  induction bytes generalizing k with
  | nil => rfl
  | cons b bs ih =>
    rw [framePulses, writesTo_append, List.length_append, length_writesTo_bytePulses, ih, List.length_cons,
      Nat.mul_succ, Nat.add_comm]

/-- A frame writes each line sixteen times a byte, and once to close it. -/
theorem length_writesTo_frame (l : Line) (bytes : List Byte) (w : ControlWord) :
    (writesTo l (frame bytes w)).length = 16 * bytes.length + 1 := by
  rw [frame, writesTo_append, List.length_append, length_writesTo_framePulses]
  cases l <;> rfl

/-- A pulse raises CLOCK and drops it again. -/
theorem levelChanges_clock_pulse (d c : Level) (es : List Event) :
    levelChanges .clock false (pulse d c ++ es) = 2 + levelChanges .clock false es :=
  (Nat.add_assoc 1 1 _).symm

/-- Every pulse changes CLOCK twice. -/
theorem levelChanges_clock_flatMap_pulse (ps : List BitPos) (f g : BitPos → Level) (es : List Event) :
    levelChanges .clock false ((ps.flatMap fun p => pulse (f p) (g p)) ++ es) =
      2 * ps.length + levelChanges .clock false es := by
  induction ps with
  | nil => simp
  | cons p ps ih =>
    rw [List.flatMap_cons, List.append_assoc, levelChanges_clock_pulse, ih, List.length_cons]
    omega

/-- A byte's pulses change CLOCK sixteen times. -/
theorem levelChanges_clock_bytePulses (w : ControlWord) (k : Nat) (b : Byte) (es : List Event) :
    levelChanges .clock false (bytePulses w k b ++ es) = 16 + levelChanges .clock false es :=
  levelChanges_clock_flatMap_pulse bitPositions _ _ es

theorem levelChanges_clock_framePulses (w : ControlWord) (k : Nat) (bytes : List Byte) :
    levelChanges .clock false (framePulses w k bytes ++ closingWrites) = 16 * bytes.length := by
  induction bytes generalizing k with
  | nil => rfl
  | cons b bs ih =>
    rw [framePulses, List.append_assoc, levelChanges_clock_bytePulses, ih, List.length_cons, Nat.mul_succ,
      Nat.add_comm]

/-- Settles O55: the counts of a byte's pulses, over all bytes, and of the closing writes. -/
theorem frameCounts : Obligations.FrameCounts := by
  intro bytes w
  obtain ⟨-, hrise⟩ := risingEdgesGiveThePayload bytes w
  have hfall : (fallSamples (frame bytes w)).length = 8 * bytes.length := by
    simp [fallSamples_frame, controlStream]
  exact ⟨fun e => eq_write_of_mem_frame, length_frame bytes w, length_writesTo_frame .clock bytes w,
    length_writesTo_frame .data bytes w, hrise, hfall, levelChanges_clock_framePulses w 0 bytes⟩

/-! ### The level changes of DATA -/

/-- Without a reset a line changes level where a write differs from the one before. -/
theorem levelChanges_eq_transitions (h : Event.reset ∉ es) : levelChanges l v es = transitions v (writesTo l es) := by
  induction es generalizing v with
  | nil => rfl
  | cons e es ih =>
    rw [List.mem_cons, not_or] at h
    obtain ⟨hne, hes⟩ := h
    rcases e with ⟨l', v'⟩ | _ | _
    · by_cases hl : l' = l <;> simp [levelChanges, writesTo, transitions, hl, ih hes]
    · exact ih hes
    · exact absurd rfl hne

/-- A list of levels with no change holds one level. -/
theorem eq_of_transitions_eq_zero {x : Level} {xs : List Level} (h : transitions x xs = 0) : ∀ y ∈ xs, y = x := by
  induction xs with
  | nil => simp
  | cons y ys ih =>
    obtain ⟨hy, hys⟩ := Nat.add_eq_zero_iff.mp h
    obtain rfl : y = x := by simpa using hy
    simpa using ih hys

/-- With DATA low and every DATA write 0, every rising edge samples 0. -/
theorem riseFrom_eq_false (c : Level) (h : ∀ v ∈ writesTo .data es, v = false) :
    ∀ b ∈ riseFrom c false es, b = false := by
  induction es generalizing c with
  | nil => simp [riseFrom]
  | cons e es ih =>
    rcases e with ⟨_ | _, v⟩ | _ | _
    · have hes := ih v h
      unfold riseFrom; split <;> simpa using hes
    · obtain ⟨rfl, hes⟩ := List.forall_mem_cons.mp h
      exact ih c hes
    · exact ih c h
    · exact ih false h

/-- With DATA low and every DATA write 0, every falling edge samples 0. -/
theorem fallFrom_eq_false (c : Level) (h : ∀ v ∈ writesTo .data es, v = false) :
    ∀ b ∈ fallFrom c false es, b = [false] := by
  induction es generalizing c with
  | nil => simp [fallFrom]
  | cons e es ih =>
    rcases e with ⟨_ | _, v⟩ | _ | _
    · have hes := ih v h
      unfold fallFrom; split <;> simpa using hes
    · obtain ⟨rfl, hes⟩ := List.forall_mem_cons.mp h
      exact ih c hes
    · exact ih c h
    · have hes := ih false h
      unfold fallFrom; split <;> simpa [resetSample] using hes

/-- Settles O58: a frame has no reset, so its level changes are those of its writes; with none on DATA every DATA
write is 0, and so is every sample. -/
theorem dataLevelChangesOfAFrame : Obligations.DataLevelChangesOfAFrame := by
  intro bytes w
  have hreset : Event.reset ∉ frame bytes w := fun he => by
    obtain ⟨l, v, hwrite⟩ := eq_write_of_mem_frame he
    cases hwrite
  have hclock : levelChanges .clock false (frame bytes w) = 16 * bytes.length :=
    levelChanges_clock_framePulses w 0 bytes
  have hdata := levelChanges_eq_transitions (l := .data) (v := false) hreset
  refine ⟨hdata, by rw [hclock, hdata], fun htotal => ?_⟩
  have hlow := eq_of_transitions_eq_zero (x := false) (xs := writesTo .data (frame bytes w)) (by omega)
  exact ⟨riseFrom_eq_false false hlow, fallFrom_eq_false false hlow⟩

end Sys2Proof.Machine

/-! No exception in any reachable state (60_exceptions.md R116). -/

namespace Sys2Proof.Machine

variable {s t : State} {bytes : List Byte} {cw : ControlWord} {total : List Event}
  {o : Host.Outcome State Fault Refusal}

/-! ### Safe states -/

/-- No fault, not the reserved code, and outside `IDLE` a transmission whose every payload byte can be read. Under one
pin for both lines no step answers a next state, so nothing is asked of a transmission there (R86). -/
structure State.Safe (s : State) : Prop where
  noFault : s.faultQ = false
  notReserved : s.fsm ≠ fsmReserved
  sends : s.cfg.pinsDistinct = true → s.fsm ≠ fsmIdle → ∃ bytes cw total, s.Sending bytes cw total

theorem safe_of_idle (h0 : s.fsm = fsmIdle) (hf : s.faultQ = false) : s.Safe where
  noFault := hf
  notReserved := by rw [h0]; decide
  sends _ hbusy := absurd h0 hbusy

theorem State.Stage.fsm_ne_reserved (hs : s.Stage) : s.fsm ≠ fsmReserved := by
  cases hs with
  | pulse hcode => rcases hcode with h0 | h0 | h0 | h0 <;> rw [h0] <;> decide
  | closeClock hcode => rw [hcode]; decide
  | closeData hcode => rw [hcode]; decide
  | ended hcode => rw [hcode]; decide

theorem State.Sending.safe (hs : s.Sending bytes cw total) : s.Safe where
  noFault := hs.noFault
  notReserved := hs.stage.fsm_ne_reserved
  sends _ _ := ⟨bytes, cw, total, hs⟩

theorem State.Inv.safe (hs : s.Inv) : s.Safe where
  noFault := hs.noFault
  notReserved := hs.notReserved
  sends hp hbusy := by
    obtain ⟨bytes, total, hsend⟩ := hs.exists_sending hp hbusy
    exact ⟨bytes, s.cwQ, total, hsend⟩

/-! ### A step and a run from a safe state -/

/-- A safe next state, or a refusal; never a fault. -/
def SafeOutcome (o : Host.Outcome State Fault Refusal) : Prop :=
  (∃ t : State, o = .next t ∧ t.Safe) ∨ ∃ r, o = .refused r

theorem SafeOutcome.ne_fault (ho : SafeOutcome o) (f : Fault) : o ≠ .fault f := by
  rcases ho with ⟨t, rfl, -⟩ | ⟨r, rfl⟩ <;> simp

theorem SafeOutcome.safe (ho : SafeOutcome o) (h : o = .next t) : t.Safe := by
  subst h
  obtain ⟨u, hu, hsafe⟩ | ⟨r, hr⟩ := ho
  · cases hu; exact hsafe
  · cases hr

/-- One pin for both lines: the step is refused (R86). -/
theorem step_samePin (hp : s.cfg.pinsDistinct = false) : step s = .refused .samePin := by
  simp [step, beforeSelected, hp, afterStep]

/-- An idle block refuses a `TRANSMIT` whose payload does not fit the length register (R86). -/
theorem step_lengthTooLarge (hp : s.cfg.pinsDistinct = true) (h0 : s.fsm = fsmIdle) (hf : s.faultQ = false)
    (hr : s.port.rst = false) (hv : s.port.cmdValid = true) (ho : cmdOp s.port.cmdWord = false)
    (hfits : s.cfg.lengthFits s.port.cmdData.length = false) : step s = .refused .lengthTooLarge := by
  have hexec : exec (.transmit (cmdControlWord s.port.cmdWord) s.port.cmdData) s = .refused .lengthTooLarge := by
    simp [exec, execTransmit, presentTransmit, cmdReady_of_idle h0 hf hr, hfits]
  have hsel : selected s = .transmit (cmdControlWord s.port.cmdWord) s.port.cmdData := by
    simp [selected, h0, hv, decodeCommand, ho]
  rw [step_selected hp hr hf, hsel, hexec, afterStep]

/-- An idle block rests, starts a transmission whose payload it has just bound, or refuses the command. -/
theorem safeOutcome_step_idle (hp : s.cfg.pinsDistinct = true) (h0 : s.fsm = fsmIdle) (hf : s.faultQ = false)
    (hr : s.port.rst = false) : SafeOutcome (step s) := by
  by_cases hv : s.port.cmdValid = true
  swap
  · exact .inl ⟨_, step_idle_without_command hp hr hf h0 (Bool.not_eq_true _ ▸ hv),
      safe_of_idle (by simpa using h0) (by simpa using hf)⟩
  by_cases ho : cmdOp s.port.cmdWord = true
  · have hsend := (atStart_acceptDisable s).sending hp hf (holdsPayload_of_virtual rfl)
    exact .inl ⟨_, step_accept_disable hp h0 hf hr hv ho, (hsend.hostTurn _).safe⟩
  have ho' := Bool.not_eq_true _ ▸ ho
  by_cases hfits : s.cfg.lengthFits s.port.cmdData.length = true
  · have hsend := (atStart_acceptTransmit (cmdControlWord s.port.cmdWord) s.port.cmdData s).sending hp hf
      (holdsPayload_of_bound rfl rfl rfl)
    exact .inl ⟨_, step_accept_transmit hp h0 hf hr hv ho' hfits, (hsend.hostTurn _).safe⟩
  · exact .inr ⟨_, step_lengthTooLarge hp h0 hf hr hv ho' (Bool.not_eq_true _ ▸ hfits)⟩

/-- Every step from a safe state: the refused configuration, reset, `IDLE`, or a micro-step of a transmission. -/
theorem State.Safe.safeOutcome_step (hs : s.Safe) : SafeOutcome (step s) := by
  by_cases hp : s.cfg.pinsDistinct = true
  swap
  · exact .inr ⟨_, step_samePin (Bool.not_eq_true _ ▸ hp)⟩
  by_cases hr : s.port.rst = true
  · exact .inl ⟨_, step_reset hp hr, safe_of_idle (by simp) (by simp)⟩
  have hr' := Bool.not_eq_true _ ▸ hr
  by_cases h0 : s.fsm = fsmIdle
  · exact safeOutcome_step_idle hp h0 hs.noFault hr'
  · obtain ⟨bytes, cw, total, hsend⟩ := hs.sends hp h0
    obtain ⟨u, hu, -, -, hsend', -⟩ := hsend.step_advances h0 hr'
    exact .inl ⟨_, hu, (hsend'.hostTurn _).safe⟩

/-- A run stops at a refusal. -/
theorem run_succ_of_refused (M : Host.Core) (n : Nat) {s : M.State} {r : M.Refusal} (h : M.step s = .refused r) :
    M.run (n + 1) s = .refused r := by
  simp only [Host.Core.run, h]

theorem State.Safe.safeOutcome_run (hs : s.Safe) (n : Nat) : SafeOutcome (Host.Core.run Sys2Proof.core n s) := by
  induction n generalizing s with
  | zero => exact .inl ⟨s, rfl, hs⟩
  | succ n ih =>
    rcases hs.safeOutcome_step with ⟨t, ht, hsafe⟩ | ⟨r, hr⟩
    · rw [core_run_succ ht]
      exact ih hsafe
    · exact .inr ⟨r, run_succ_of_refused Sys2Proof.core n hr⟩

/-- Settles O15: the invariant and the reset state are safe, and steps and runs from safe states never fault. -/
theorem noExceptionInReachableStates : Obligations.NoExceptionInReachableStates := by
  refine ⟨fun s hs => ?_, fun cfg port script n => ?_⟩
  · have hstep := hs.safe.safeOutcome_step
    exact ⟨hstep.ne_fault, fun t h => (hstep.safe h).noFault⟩
  · have hsafe : { State.reset with cfg := cfg, port := port, script := script }.Safe := safe_of_idle rfl rfl
    have hrun := hsafe.safeOutcome_run n
    exact ⟨hrun.ne_fault, fun t h => ⟨(hrun.safe h).noFault, (hrun.safe h).notReserved⟩⟩

end Sys2Proof.Machine

/-! The reset: what it sets, and what a receiver sees of it (70_reset_and_hazards.md R134, R135, R136). -/

namespace Sys2Proof.Machine

variable {s : State}

/-! ### What a reset sets -/

/-- Settles O32: the step is the reset transition and the host's turn, which touches the port and the script alone. -/
theorem resetTransitionSetsEveryElement : Obligations.ResetTransitionSetsEveryElement := by
  intro s hpins hr
  refine ⟨_, step_reset (pinsDistinct_iff.mpr hpins) hr, ?_⟩
  simp [State.busy, State.cmdReady, fsmIdle]

/-- Settles O33: `State.reset` is written out element by element. -/
theorem modelStartsInTheResetState : Obligations.ModelStartsInTheResetState :=
  ⟨rfl, rfl, rfl, rfl, rfl, rfl, rfl, rfl, rfl, rfl⟩

/-! ### What a receiver samples at a reset -/

/-- A reset at the end of a trace adds no rising-edge sample. -/
theorem riseFrom_append_reset (c d : Level) (events : List Event) :
    riseFrom c d (events ++ [.reset]) = riseFrom c d events := by
  induction events generalizing c d with
  | nil => rfl
  | cons e es ih => rcases e with ⟨_ | _, _⟩ | _ | _ <;> simp [riseFrom, ih]

/-- A reset at the end of a trace adds the sample of R135 if the trace leaves CLOCK high, and none otherwise. -/
theorem fallFrom_append_reset (c d : Level) (events : List Event) :
    fallFrom c d (events ++ [.reset]) = fallFrom c d events ++
      if lineAfter .clock c events then [resetSample (lineAfter .data d events)] else [] := by
  induction events generalizing c d with
  | nil => rfl
  | cons e es ih =>
    rcases e with ⟨_ | _, v⟩ | _ | _
    · cases v with
      | true => exact ih true d
      | false =>
        cases c with
        | true => exact congrArg ([d] :: ·) (ih false d)
        | false => exact ih false d
    · exact ih c v
    · exact ih c d
    · cases c with
      | true => exact congrArg (resetSample d :: ·) (ih false false)
      | false => exact ih false false

theorem mem_resetSample {b d : Level} : b ∈ resetSample d ↔ b = d ∨ b = false := by
  cases d <;> simp [resetSample]

/-- One sample more admits exactly its own values after samples that are admitted. -/
theorem admits_append_singleton {samples : List (List Level)} {bits : List Level} (h : admits samples bits = true)
    (values : List Level) (b : Level) : admits (samples ++ [values]) (bits ++ [b]) = true ↔ b ∈ values := by
  induction samples generalizing bits with
  | nil =>
    cases bits with
    | nil => simp [admits]
    | cons x xs => cases h
  | cons vs rest ih =>
    cases bits with
    | nil => cases h
    | cons x xs =>
      obtain ⟨hx, hxs⟩ := (Bool.and_eq_true _ _).mp h
      rw [List.cons_append, List.cons_append, admits, hx, Bool.true_and, ih hxs]

/-- Settles O34: the reset state is that of O32; the lines' levels before the reset decide the falling edge at its
event, and its one sample. -/
theorem resetAbortsATransmission : Obligations.ResetAbortsATransmission := by
  intro s t h hr hclock hdata
  obtain ⟨hpins, -⟩ := step_cases h
  obtain ⟨u, hu, hc, hd, hfsm, -, -, -, -, -, -, htrace, -⟩ :=
    resetTransitionSetsEveryElement s (pinsDistinct_iff.mp hpins) hr
  obtain rfl : t = u := Host.Outcome.next.inj (h.symm.trans hu)
  have hfall : fallSamples t.trace = fallSamples s.trace ++ if s.clockQ then [resetSample s.dataQ] else [] := by
    rw [htrace, ← hclock, ← hdata]
    exact fallFrom_append_reset false false s.trace
  refine ⟨hc, hd, hfsm, htrace, ?_, fun hlow => ?_, fun hhigh bits hbits b => ?_⟩
  · rw [htrace]
    exact riseFrom_append_reset false false s.trace
  · simp [hfall, hlow]
  · rw [hfall, if_pos hhigh, admits_append_singleton hbits, mem_resetSample]

end Sys2Proof.Machine

/-! Decode and encode as inverses, and the words of 30_encoding.md written out (R65 to R82). -/

namespace Sys2Proof.Machine

variable {word : CmdWord} {data : List Byte}

/-! ### Decoding what was encoded -/

theorem decode_encode (i : Instr) : decode (encode i) = i := by
  cases i with
  | transmit cw data => simp [encode, decode, decodeCommand]
  | disable => simp [encode, decode, decodeCommand]
  | idle => exact decodeFsm_idle
  | sDpay => exact decodeFsm_sDpay
  | sCrise => exact decodeFsm_sCrise
  | sDctl => exact decodeFsm_sDctl
  | sCfall => exact decodeFsm_sCfall
  | sFclk => exact decodeFsm_sFclk
  | sFdata => exact decodeFsm_sFdata
  | reservedFsm => exact decodeFsm_reserved

/-- A command word of 33 bits, laid out in 40. -/
theorem encodingOfNat_command (word : CmdWord) : encodingOfNat 40 word.toNat = .ok (.command word []) := by
  rw [encodingOfNat, if_neg (by decide), if_pos (by decide), if_pos word.isLt, BitVec.ofNat_toNat, BitVec.setWidth_eq]

/-- A state code of 3 bits, laid out in 8. -/
theorem encodingOfNat_fsm (code : FsmCode) : encodingOfNat 8 code.toNat = .ok (.fsm code) := by
  rw [encodingOfNat, if_pos (by decide), if_pos code.isLt, BitVec.ofNat_toNat, BitVec.setWidth_eq]

/-! ### Encoding what was decoded -/

theorem encode_decode_fsm (code : FsmCode) : encode (decode (.fsm code)) = .fsm code := by
  show encode (decodeFsm code) = .fsm code
  rcases fsm_cases code with rfl | rfl | rfl | rfl | rfl | rfl | rfl | rfl <;> simp [encode]

/-- A word with `OP` = 0 is its control word and a zero above it (R66). -/
theorem transmitWord_cmdControlWord (h : word.getLsbD 32 = false) : transmitWord (cmdControlWord word) = word := by
  refine BitVec.eq_of_getLsbD_eq fun i hi => ?_
  rw [transmitWord, cmdControlWord, BitVec.getLsbD_setWidth, BitVec.getLsbD_extractLsb', Nat.zero_add]
  rcases Nat.lt_or_eq_of_le (Nat.le_of_lt_succ hi) with hlt | rfl
  · simp [hi, hlt]
  · simpa using h.symm

theorem encode_decode_transmit (data : List Byte) (h : word.getLsbD 32 = false) :
    encode (decode (.command word data)) = .command word data := by
  have hop : cmdOp word = false := h
  simp [decode, decodeCommand, hop, encode, transmitWord_cmdControlWord h]

/-- The word and the payload of a `DISABLE` are not kept (R68). -/
theorem encode_decode_disable (data : List Byte) (h : word.getLsbD 32 = true) :
    encode (decode (.command word data)) = .command disableWord [] := by
  have hop : cmdOp word = true := h
  simp [decode, decodeCommand, hop, encode]

/-- Settles O2: the state codes are decoded one by one; a command word is its `OP` bit over its control word. -/
theorem decodeAndEncodeAgree : Obligations.DecodeAndEncodeAgree := by
  refine ⟨decode_encode, fun cw => ?_, fun i code hi => ?_, encode_decode_fsm, fun _ => encode_decode_transmit,
    fun _ => encode_decode_disable⟩
  · have hdecode : decode (.command (transmitWord cw) []) = .transmit cw [] := decode_encode (.transmit cw [])
    rw [decodeTableWord, encodingOfNat_command]
    exact congrArg some hdecode
  · have hdecode : decode (.fsm code) = i := hi ▸ decode_encode i
    rw [decodeTableWord, encodingOfNat_fsm]
    exact congrArg some hdecode

/-- Settles O1: bit 32 of each command word tells the command, and the numbers are small closed cases. -/
theorem writtenOutWordsDecode : Obligations.WrittenOutWordsDecode := by
  unfold Obligations.WrittenOutWordsDecode
  decide

end Sys2Proof.Machine

/-! The assembler and the disassembler (30_encoding.md R79 to R81). -/

namespace Sys2Proof.Machine

variable {n cw : Nat} {bytes : List Nat} {l : List Char} {ls before : List (List Char)} {a : AsmLine}
  {i : Instr} {is : List Instr} {e : AsmError}

/-! ### The literals of a line -/

theorem assembleTransmit_out_of_range (line : Nat) (h : 2 ^ 32 ≤ cw ∨ ∃ b ∈ bytes, 255 < b) :
    assembleTransmit line cw bytes = .error (.literalOutOfRange line) := by
  refine if_neg fun ⟨hcw, hbytes⟩ => ?_
  rcases h with hbig | ⟨b, hb, hbig⟩
  · omega
  · have hle : b ≤ 255 := of_decide_eq_true (List.all_eq_true.mp hbytes b hb)
    omega

/-- The values of a control word and of bytes are literals in range, and are read as that word and those bytes. -/
theorem assembleTransmit_toNat (line : Nat) (cw : ControlWord) (data : List Byte) :
    assembleTransmit line cw.toNat (data.map BitVec.toNat) = .ok (.transmit cw data) := by
  have hbytes : (data.map BitVec.toNat).all (fun b => decide (b ≤ 255)) = true := by
    simp only [List.all_map, List.all_eq_true, Function.comp_apply, decide_eq_true_eq]
    intro b _
    omega
  rw [assembleTransmit, if_pos ⟨cw.isLt, hbytes⟩]
  simp [Function.comp_def]

/-! ### The lines of a program -/

theorem assembleFrom_of_badSyntax (h : parseLine (tokens l) = none) :
    assembleFrom n (l :: ls) = .error (.badSyntax n) := by
  simp [assembleFrom, h]

theorem assembleFrom_of_blank (h : parseLine (tokens l) = some []) :
    assembleFrom n (l :: ls) = assembleFrom (n + 1) ls := by
  simp [assembleFrom, h]

theorem assembleFrom_of_refused {as : List AsmLine} (h : parseLine (tokens l) = some (a :: as))
    (ha : assembleLine n a = .error e) : assembleFrom n (l :: ls) = .error e := by
  simp [assembleFrom, h, ha]

theorem assembleFrom_of_command {as : List AsmLine} (h : parseLine (tokens l) = some (a :: as))
    (ha : assembleLine n a = .ok i) : assembleFrom n (l :: ls) = (assembleFrom (n + 1) ls).map (i :: ·) := by
  cases hls : assembleFrom (n + 1) ls <;> simp [assembleFrom, h, ha, hls, Except.map]

/-- Lines that assemble add their commands before those of the lines that follow, and count as lines. -/
theorem assembleFrom_append (h : assembleFrom n before = .ok is) (rest : List (List Char)) :
    assembleFrom n (before ++ rest) = (assembleFrom (n + before.length) rest).map (is ++ ·) := by
  induction before generalizing n is with
  | nil =>
    cases h
    cases hrest : assembleFrom n rest <;> simp [hrest, Except.map]
  | cons l ls ih =>
    rw [List.cons_append, List.length_cons, Nat.add_comm ls.length, ← Nat.add_assoc]
    match hl : parseLine (tokens l) with
    | none => rw [assembleFrom_of_badSyntax hl] at h; cases h
    | some [] =>
      rw [assembleFrom_of_blank hl] at h ⊢
      exact ih h
    | some (a :: as) =>
      cases ha : assembleLine n a with
      | error e => rw [assembleFrom_of_refused hl ha] at h; cases h
      | ok i =>
        rw [assembleFrom_of_command hl ha] at h ⊢
        cases hls : assembleFrom (n + 1) ls with
        | error e => rw [hls] at h; cases h
        | ok js =>
          rw [hls] at h
          cases h
          rw [ih hls]
          cases assembleFrom (n + 1 + ls.length) rest <;> rfl

/-- The lines before a line that assemble are only counted. -/
theorem assemble_append (h : assemble before = .ok is) (rest : List (List Char)) :
    assemble (before ++ rest) = (assembleFrom (before.length + 1) rest).map (is ++ ·) := by
  rw [Nat.add_comm]
  exact assembleFrom_append h rest

/-- Settles O7: the literals by their ranges; a program's line is assembled under its number, after the lines before
it. -/
theorem assemblerChecksLiterals : Obligations.AssemblerChecksLiterals := by
  refine ⟨fun line bytes => rfl, fun line cw bytes => assembleTransmit_out_of_range line, assembleTransmit_toNat,
    fun line => rfl, fun before after text is h => ⟨fun hbad => ?_, fun cw bytes hparse hout => ?_,
    fun bytes hparse hout => ?_, fun hblank => ?_, fun a i hparse ha => ?_⟩⟩ <;> rw [assemble_append h]
  · rw [assembleFrom_of_badSyntax hbad]
    rfl
  · rw [assembleFrom_of_refused hparse (assembleTransmit_out_of_range _ hout)]
    rfl
  · rw [assembleFrom_of_refused hparse (assembleTransmit_out_of_range _ (.inr hout))]
    rfl
  · rw [assembleFrom_of_blank hblank]
    simp [assembleFrom, Except.map]
  · rw [assembleFrom_of_command hparse ha]
    rfl

/-- A program of one line. -/
theorem assemble_singleton (h : parseLine (tokens l) = some [a]) (ha : assembleLine 1 a = .ok i) :
    assemble [l] = .ok [i] := by
  rw [assemble, assembleFrom_of_command h ha]
  rfl

/-! ### The tokens of a line -/

/-- The characters that end a word. -/
def separators : List Char := [';', ' ', '\t', ',', '[', ']']

/-- A word is collected up to what follows it. -/
theorem tokensFrom_append {w : List Char} (hw : ∀ c ∈ w, c ∉ separators) (acc cs : List Char) :
    tokensFrom acc (w ++ cs) = tokensFrom (w.reverse ++ acc) cs := by
  induction w generalizing acc with
  | nil => rfl
  | cons c w ih =>
    obtain ⟨hc, hw⟩ := List.forall_mem_cons.mp hw
    simp only [separators, List.mem_cons, List.not_mem_nil, or_false, not_or] at hc
    simp [tokensFrom, hc, ih hw]

/-- A word of a line: not empty, and without a separator. -/
structure IsWord (w : List Char) : Prop where
  nonempty : w ≠ []
  noSeparator : ∀ c ∈ w, c ∉ separators

theorem IsWord.endWord {w : List Char} (hw : IsWord w) : endWord (w.reverse ++ []) = [.text w] := by
  rw [List.append_nil]
  cases hr : w.reverse with
  | nil => exact absurd (List.reverse_eq_nil_iff.mp hr) hw.nonempty
  | cons c cs => rw [Machine.endWord, ← hr, List.reverse_reverse]

theorem IsWord.tokens_space {w : List Char} (hw : IsWord w) (cs : List Char) :
    tokens (w ++ ' ' :: cs) = .text w :: tokens cs := by
  rw [tokens, tokensFrom_append hw.noSeparator, tokensFrom, hw.endWord]
  rfl

theorem IsWord.tokens_comma {w : List Char} (hw : IsWord w) (cs : List Char) :
    tokens (w ++ ',' :: cs) = .text w :: .comma :: tokens cs := by
  rw [tokens, tokensFrom_append hw.noSeparator, tokensFrom, hw.endWord]
  rfl

theorem IsWord.tokens_rbracket {w : List Char} (hw : IsWord w) (cs : List Char) :
    tokens (w ++ ']' :: cs) = .text w :: .rbracket :: tokens cs := by
  rw [tokens, tokensFrom_append hw.noSeparator, tokensFrom, hw.endWord]
  rfl

theorem tokens_space (cs : List Char) : tokens (' ' :: cs) = tokens cs := rfl

theorem tokens_lbracket (cs : List Char) : tokens ('[' :: cs) = .lbracket :: tokens cs := rfl

/-! ### Hexadecimal literals -/

theorem hexDigit_not_separator : ∀ d < 16, hexDigit d ∉ separators := by decide

theorem digitValue_hexDigit : ∀ d < 16, digitValue (hexDigit d) = d := by decide

theorem mem_hexFixed {k n : Nat} {c : Char} (h : c ∈ hexFixed k n) : ∃ d < 16, c = hexDigit d := by
  induction k generalizing n with
  | zero => cases h
  | succ k ih =>
    rcases List.mem_append.mp h with h | h
    · exact ih h
    · exact ⟨n % 16, Nat.mod_lt n (by decide), List.mem_singleton.mp h⟩

theorem isWord_hexLiteral (k n : Nat) : IsWord (hexLiteral k n) where
  nonempty := List.cons_ne_nil _ _
  noSeparator := by
    refine List.forall_mem_cons.mpr ⟨by decide, List.forall_mem_cons.mpr ⟨by decide, fun c hc => ?_⟩⟩
    obtain ⟨d, hd, rfl⟩ := mem_hexFixed hc
    exact hexDigit_not_separator d hd

theorem digitsValue_append (base acc : Nat) (cs ds : List Char) :
    digitsValue base acc (cs ++ ds) = (digitsValue base acc cs).bind fun v => digitsValue base v ds := by
  induction cs generalizing acc with
  | nil => rfl
  | cons c cs ih =>
    rw [List.cons_append, digitsValue, digitsValue]
    split
    · exact ih _
    · rfl

/-- The digits of a value, read on top of another, spell both. -/
theorem digitsValue_hexFixed (acc k n : Nat) :
    digitsValue 16 acc (hexFixed k n) = some (acc * 16 ^ k + n % 16 ^ k) := by
  induction k generalizing n with
  | zero => simp [hexFixed, digitsValue, Nat.mod_one]
  | succ k ih =>
    have hd : n % 16 < 16 := Nat.mod_lt n (by decide)
    rw [hexFixed, digitsValue_append, ih, Option.bind_some, digitsValue, digitValue_hexDigit _ hd, if_pos hd,
      digitsValue, Nat.pow_succ', Nat.mod_mul]
    congr 1
    ring

/-- A value that its digits can hold is read back from its literal (R79, R81). -/
theorem literal_hexLiteral {k n : Nat} (h : n < 16 ^ (k + 1)) : literal (hexLiteral (k + 1) n) = some n := by
  have hread := digitsValue_hexFixed 0 (k + 1) n
  rw [Nat.zero_mul, Nat.zero_add, Nat.mod_eq_of_lt h] at hread
  rw [hexLiteral, ← hread]
  cases hds : hexFixed (k + 1) n with
  | nil => exact absurd (List.append_eq_nil_iff.mp hds).2 (List.cons_ne_nil _ _)
  | cons d ds => rfl

/-! ### Reading a disassembled line -/

/-- A list of bytes, at least one, is read back up to its bracket. -/
theorem itemsToClose_hexList (b : Byte) (bs : List Byte) :
    itemsToClose (tokens (hexList (b :: bs) ++ [']'])) = some ((b :: bs).map BitVec.toNat) := by
  have hlit (b : Byte) : literal (hexLiteral 2 b.toNat) = some b.toNat := literal_hexLiteral b.isLt
  induction bs generalizing b with
  | nil =>
    rw [hexList, (isWord_hexLiteral 2 _).tokens_rbracket]
    show (literal (hexLiteral 2 b.toNat)).map _ = _
    rw [hlit]
    rfl
  | cons b' bs ih =>
    rw [hexList, List.append_assoc, List.cons_append, List.cons_append, (isWord_hexLiteral 2 _).tokens_comma,
      tokens_space]
    simp [itemsToClose, hlit, ih]

/-- A bracketed list of items that are read up to the closing bracket. -/
theorem bracketed_of_items {ts : List Token} (h : itemsToClose ts = some bytes) :
    bracketed (.lbracket :: ts) = some bytes := by
  unfold bracketed
  split
  · next heq => cases heq; cases h
  · next heq => cases heq; exact h
  · next hno => exact absurd rfl (hno ts)

theorem bracketed_hexList (data : List Byte) :
    bracketed (tokens ('[' :: (hexList data ++ [']']))) = some (data.map BitVec.toNat) := by
  cases data with
  | nil => decide
  | cons b bs => exact bracketed_of_items (itemsToClose_hexList b bs)

theorem parseLine_transmit {w : List Char} {ts : List Token} (hw : literal w = some cw)
    (hts : bracketed ts = some bytes) :
    parseLine (.text wordTransmit :: .text w :: .comma :: ts) = some [.transmit cw bytes] := by
  rw [parseLine, if_pos (by decide)]
  simp [hw, hts]

/-- Settles O8: the words and brackets of the text are its tokens, and each literal is read as the value it was written
from. -/
theorem disassemblyAssemblesBack : Obligations.DisassemblyAssemblesBack := by
  intro word data
  by_cases ho : cmdOp word = true
  · rw [disassemble, if_pos ho, decodeCommand, if_pos ho]
    decide
  · have hword : (cmdControlWord word).toNat < 16 ^ 8 :=
      (cmdControlWord word).isLt.trans_eq (by norm_num)
    have hparse := parseLine_transmit (literal_hexLiteral hword) (bracketed_hexList data)
    have htokens : tokens (disassemble word data) = .text wordTransmit ::
        .text (hexLiteral 8 (cmdControlWord word).toNat) :: .comma :: tokens ('[' :: (hexList data ++ [']'])) := by
      have hmnemonic : IsWord wordTransmit := ⟨by decide, by simp [wordTransmit, separators]⟩
      rw [disassemble, if_neg ho]
      simp only [List.append_assoc, List.cons_append, List.nil_append]
      rw [hmnemonic.tokens_space, (isWord_hexLiteral 8 _).tokens_comma, tokens_space]
    rw [decodeCommand, if_neg ho]
    rw [← htokens] at hparse
    exact assemble_singleton hparse (assembleTransmit_toNat 1 _ data)

end Sys2Proof.Machine

/-! What every step keeps: the configuration, what a command latched, the payload memory, the trace and the fault flag
(10_state.md R23 to R27, R35, R36; 20_memory.md R44). -/

namespace Sys2Proof.Machine

variable {s t : State}

/-! ### The operands of a step -/

/-- Settles O42: no branch of a step writes the configuration. -/
theorem stepKeepsTheConfiguration : Obligations.StepKeepsTheConfiguration := by
  intro s t h
  obtain ⟨-, u, rfl, ⟨-, rfl⟩ | ⟨-, -, rfl⟩ | ⟨-, -, hrun⟩⟩ := step_cases h
  · simp
  · simp
  · rcases hrun with ⟨-, -, rfl⟩ | ⟨-, -, -, rfl⟩ | ⟨-, -, -, -, rfl⟩ | ⟨-, b, -, rfl⟩ | ⟨-, rfl⟩ |
      ⟨-, rfl⟩ | ⟨-, rfl⟩ | ⟨-, rfl⟩ | ⟨-, rfl⟩ | ⟨-, rfl⟩
    all_goals simp

/-- What a step that accepts a command makes of the block: bit 32 tells which of the two acceptances (R84, R87, R88). -/
theorem step_of_accepts (h : step s = .next t) (hacc : s.accepts = true) :
    (cmdOp s.port.cmdWord = true ∧ t = (acceptDisable s).hostTurn s.pending) ∨
    (cmdOp s.port.cmdWord = false ∧ s.cfg.lengthFits s.port.cmdData.length = true ∧
      t = (acceptTransmit (cmdControlWord s.port.cmdWord) s.port.cmdData s).hostTurn s.pending) := by
  obtain ⟨hp, -⟩ := step_cases h
  obtain ⟨hv, h0, hf, hr⟩ := accepts_iff.mp hacc
  by_cases ho : cmdOp s.port.cmdWord = true
  · exact .inl ⟨ho, Host.Outcome.next.inj (h.symm.trans (step_accept_disable hp h0 hf hr hv ho))⟩
  have ho' := Bool.not_eq_true _ ▸ ho
  by_cases hfits : s.cfg.lengthFits s.port.cmdData.length = true
  · exact .inr ⟨ho', hfits, Host.Outcome.next.inj (h.symm.trans (step_accept_transmit hp h0 hf hr hv ho' hfits))⟩
  · rw [step_lengthTooLarge hp h0 hf hr hv ho' (Bool.not_eq_true _ ▸ hfits)] at h
    cases h

/-- Without reset and acceptance a step leaves what the command latched, and does not leave `IDLE`. -/
theorem step_of_not_accepts (h : step s = .next t) (hr : s.port.rst = false) (hacc : s.accepts = false) :
    (t.cwQ = s.cwQ ∧ t.lenQ = s.lenQ ∧ t.srcQ = s.srcQ ∧ t.pb = s.pb) ∧ (s.fsm = fsmIdle → t.fsm = fsmIdle) := by
  obtain ⟨-, u, rfl, ⟨hr', -⟩ | ⟨-, -, rfl⟩ | ⟨-, hf, hrun⟩⟩ := step_cases h
  · simp [hr] at hr'
  · simp
  · rcases hrun with ⟨h0, -, rfl⟩ | ⟨h0, hv, -⟩ | ⟨h0, hv, -⟩ | ⟨h0, b, -, rfl⟩ | ⟨h0, rfl⟩ |
      ⟨h0, rfl⟩ | ⟨h0, rfl⟩ | ⟨h0, rfl⟩ | ⟨h0, rfl⟩ | ⟨h0, rfl⟩
    · simp
    · simp [accepts_iff.mpr ⟨hv, h0, hf, hr⟩] at hacc
    · simp [accepts_iff.mpr ⟨hv, h0, hf, hr⟩] at hacc
    all_goals simp [h0, fsmIdle, fsmSDpay, fsmSCrise, fsmSDctl, fsmSCfall, fsmSFclk, fsmSFdata, fsmReserved]

/-- Every step is a reset, an acceptance, or leaves what the command latched. -/
theorem step_operands (h : step s = .next t) :
    (∃ b, t = (resetTransition s).hostTurn b) ∨ (∃ b, t = (acceptDisable s).hostTurn b) ∨
    (∃ b cw data, s.cfg.lengthFits data.length = true ∧ t = (acceptTransmit cw data s).hostTurn b) ∨
    ((t.cwQ = s.cwQ ∧ t.lenQ = s.lenQ ∧ t.srcQ = s.srcQ ∧ t.pb = s.pb) ∧ (s.fsm = fsmIdle → t.fsm = fsmIdle)) := by
  obtain ⟨hp, -⟩ := step_cases h
  by_cases hr : s.port.rst = true
  · exact .inl ⟨_, Host.Outcome.next.inj (h.symm.trans (step_reset hp hr))⟩
  by_cases hacc : s.accepts = true
  · rcases step_of_accepts h hacc with ⟨-, ht⟩ | ⟨-, hfits, ht⟩
    · exact .inr (.inl ⟨_, ht⟩)
    · exact .inr (.inr (.inl ⟨_, _, _, hfits, ht⟩))
  · exact .inr (.inr (.inr (step_of_not_accepts h (Bool.not_eq_true _ ▸ hr) (Bool.not_eq_true _ ▸ hacc))))

/-- Settles O43: no micro-step writes a latched register, and the bytes are read from the one that holds the buffer. -/
theorem latchedOperandsChangeOnlyAtAcceptance : Obligations.LatchedOperandsChangeOnlyAtAcceptance := by
  intro s t h hr hacc
  obtain ⟨⟨hcw, hlen, hsrc, hpb⟩, -⟩ := step_of_not_accepts h hr hacc
  exact ⟨hcw, hlen, hsrc, hpb, fun a => by rw [State.byteAt, hpb, State.byteAt]⟩

/-- Settles O41: a reset unbinds the memory, a `TRANSMIT` binds a list in order, and nothing else writes it. -/
theorem stepKeepsTheMemoryCanonical : Obligations.StepKeepsTheMemoryCanonical := by
  intro s t hs h m hm
  obtain ⟨b, rfl⟩ | ⟨b, rfl⟩ | ⟨b, cw, data, -, rfl⟩ | ⟨⟨-, -, -, hpb⟩, -⟩ := step_operands h
  · simp at hm
  · exact hs m (by simpa using hm)
  · obtain rfl : Memory.bind data = m := by simpa using hm
    exact wf_bind data
  · exact hs m (hpb ▸ hm)

/-! ### The trace -/

theorem lineAfter_append (l : Line) (v : Level) (es es' : List Event) :
    lineAfter l v (es ++ es') = lineAfter l (lineAfter l v es) es' := by
  induction es generalizing v with
  | nil => rfl
  | cons e es ih => cases e <;> exact ih _

/-- Settles O48: the event of a step puts on the lines what the step writes to their registers. -/
theorem linesAgreeWithTheTrace : Obligations.LinesAgreeWithTheTrace := by
  refine ⟨⟨rfl, rfl⟩, fun s t h hclock hdata => ?_⟩
  rcases step_event h with ⟨hr, he⟩ | ⟨-, ⟨he, hd⟩ | ⟨he, hc⟩ | ⟨he | ⟨op, he⟩, hc, hd⟩⟩
  · obtain ⟨-, hc⟩ := clockLineWriters s t h
    obtain ⟨-, hd, -⟩ := dataLineWriters s t h
    simp [he, lineAfter_append, lineAfter, hc, hd hr, hr]
  · simp [he, lineAfter_append, lineAfter, hd, hdata]
  · simp [he, lineAfter_append, lineAfter, hc, hclock]
  · simp [he, hc, hd, hclock, hdata]
  · simp [he, lineAfter_append, lineAfter, hc, hd, hclock, hdata]

/-! ### The fault flag -/

/-- After a host's turn the block is the same. -/
theorem sameBlock_hostTurn_self (s : State) (b : Bool) : s.sameBlock (s.hostTurn b) := by
  obtain ⟨p, ps, hturn⟩ := hostTurn_eq s b
  rw [hturn]
  rfl

/-- A faulted block is not ready (R35). -/
theorem cmdReady_of_faultQ (hf : s.faultQ = true) : s.cmdReady = false := cmdReady_eq_false.mpr (.inr (.inl hf))

/-- Settles O49: of the branches of a step the reset clears the flag, the reserved code sets it, and the others leave
it; a faulted block is not ready and has the host's turn alone. -/
theorem faultFlagIsSticky : Obligations.FaultFlagIsSticky := by
  intro s t h
  refine ⟨?_, fun hf => by simp [State.accepts, cmdReady_of_faultQ hf],
    fun hf hr => ⟨by simp [State.hasStep, hf, hr], ?_⟩⟩
  · obtain ⟨-, u, rfl, ⟨hr, rfl⟩ | ⟨hr, hf, rfl⟩ | ⟨hr, hf, hrun⟩⟩ := step_cases h
    · simp [hr]
    · simp [hr, hf]
    · rcases hrun with ⟨h0, -, rfl⟩ | ⟨h0, -, -, rfl⟩ | ⟨h0, -, -, -, rfl⟩ | ⟨h0, b, -, rfl⟩ | ⟨h0, rfl⟩ |
        ⟨h0, rfl⟩ | ⟨h0, rfl⟩ | ⟨h0, rfl⟩ | ⟨h0, rfl⟩ | ⟨h0, rfl⟩
      all_goals
        simp [hr, hf, h0, fsmIdle, fsmSDpay, fsmSCrise, fsmSDctl, fsmSCfall, fsmSFclk, fsmSFdata, fsmReserved]
  · obtain ⟨hp, -⟩ := step_cases h
    rw [step_faulted hp hr hf] at h
    cases h
    exact sameBlock_hostTurn_self s _

end Sys2Proof.Machine

/-! The invariant of every step, and the steps of a transmission (10_state.md R30, R31, R39, R41, R42;
41_sequencer.md R106). -/

namespace Sys2Proof.Machine

variable {s t : State}

/-! ### Where a transmission stands -/

/-- After a step from a state of the invariant the block is in a pulse, at a closing write or at the end. -/
theorem step_stage (hs : s.Inv) (h : step s = .next t) : t.Stage := by
  obtain ⟨hp, -⟩ := step_cases h
  by_cases hr : s.port.rst = true
  · rw [step_reset hp hr] at h
    cases h
    exact .ended (by simp) (by simp) (by simp) (by simp)
  by_cases hacc : s.accepts = true
  · exact (atStart_of_step_accepts h hacc).stage
  have hr' := Bool.not_eq_true _ ▸ hr
  by_cases h0 : s.fsm = fsmIdle
  · have hv : s.port.cmdValid = false := by simpa [accepts_iff, h0, hs.noFault, hr'] using hacc
    rw [step_idle_without_command hp hr' hs.noFault h0 hv] at h
    cases h
    exact .ended (by simpa using h0) (by simpa using hs.ended (by rw [h0]; decide))
      (by simpa using hs.clockQ_low_of_code h0 (by decide)) (by simpa using hs.idleData h0)
  · obtain ⟨bytes, total, hsend⟩ := hs.exists_sending hp h0
    obtain ⟨u, hu, -, -, hsend', -⟩ := hsend.step_advances h0 hr'
    rw [hu] at h
    cases h
    exact (hsend'.hostTurn _).stage

theorem State.Stage.inRange (hs : s.Stage) (hcode : pulsing s.fsm) : s.bytePos < s.lenQ := by
  cases hs with
  | pulse _ hlt => exact hlt
  | closeClock h0 => rw [h0] at hcode; exact absurd hcode (by decide)
  | closeData h0 => rw [h0] at hcode; exact absurd hcode (by decide)
  | ended h0 => rw [h0] at hcode; exact absurd hcode (by decide)

theorem State.Stage.atEnd (hs : s.Stage) (hcode : ¬ pulsing s.fsm) : s.bytePos = s.lenQ ∧ s.bitPos = 0#3 := by
  cases hs with
  | pulse h0 => exact absurd h0 hcode
  | closeClock _ hend => exact hend
  | closeData _ hend => exact hend
  | ended _ hend => exact hend

/-! ### What DATA holds after a step -/

/-- Where a step that ends in a micro-step other than `S_DPAY` begins (R105). -/
theorem step_fsm_from (hs : s.Inv) (h : step s = .next t) :
    (t.fsm = fsmSCrise → s.port.rst = false ∧ s.fsm = fsmSDpay) ∧
    (t.fsm = fsmSDctl → s.port.rst = false ∧ s.fsm = fsmSCrise) ∧
    (t.fsm = fsmSCfall → s.port.rst = false ∧ s.fsm = fsmSDctl) ∧
    (t.fsm = fsmSFclk → s.port.rst = false ∧ (s.fsm = fsmIdle ∨ s.fsm = fsmSCfall)) ∧
    (t.fsm = fsmSFdata → s.port.rst = false ∧ s.fsm = fsmSFclk) := by
  rcases step_fsm hs h with ⟨-, ht⟩ | ⟨hr, ⟨h0, ht | ht | ht⟩ | ⟨h0, ht⟩ | ⟨h0, ht⟩ | ⟨h0, ht⟩ |
    ⟨h0, ht | ht⟩ | ⟨h0, ht⟩ | ⟨h0, ht⟩⟩
  all_goals
    simp [*, fsmIdle, fsmSDpay, fsmSCrise, fsmSDctl, fsmSCfall, fsmSFclk, fsmSFdata]

/-- Outside `IDLE` no command is accepted (R84). -/
theorem accepts_eq_false_of_busy (hbusy : s.fsm ≠ fsmIdle) : s.accepts = false := by
  simp [State.accepts, cmdReady_eq_false.mpr (.inl hbusy)]

/-- The first three micro-steps of a pulse leave the position and both bits of it (R97 to R99). -/
theorem step_of_pulse (h : step s = .next t) (hr : s.port.rst = false) (hf : s.faultQ = false)
    (hcode : s.fsm = fsmSDpay ∨ s.fsm = fsmSCrise ∨ s.fsm = fsmSDctl) :
    t.cwQ = s.cwQ ∧ t.bytePos = s.bytePos ∧ t.bitPos = s.bitPos ∧ payloadByte t = payloadByte s := by
  have hbusy : s.fsm ≠ fsmIdle := by rcases hcode with h0 | h0 | h0 <;> rw [h0] <;> decide
  obtain ⟨⟨hcw, hlen, hsrc, hpb⟩, -⟩ := step_of_not_accepts h hr (accepts_eq_false_of_busy hbusy)
  obtain ⟨-, hrun⟩ := nextStateTable s t h
  obtain ⟨-, -, h1, h2, h3, -⟩ := hrun hr hf
  have hpos : t.bytePos = s.bytePos ∧ t.bitPos = s.bitPos := by
    rcases hcode with h0 | h0 | h0
    · exact (h1 h0).2
    · exact (h2 h0).2
    · exact (h3 h0).2
  exact ⟨hcw, hpos.1, hpos.2, payloadByte_congr (stepKeepsTheConfiguration s t h) hsrc hpb hlen hpos.1⟩

/-- R39 after a step: `S_DPAY` puts the payload bit on DATA, and the rising edge leaves it there. -/
theorem step_payloadHeld (hs : s.Inv) (h : step s = .next t) (ht : t.fsm = fsmSCrise ∨ t.fsm = fsmSDctl) :
    ∃ b, payloadByte t = .ok b ∧ t.dataQ = payloadBit b t.bitPos := by
  obtain ⟨hcrise, hdctl, -⟩ := step_fsm_from hs h
  rcases ht with ht | ht
  · obtain ⟨hr, h1⟩ := hcrise ht
    obtain ⟨-, -, hbit, hbyte⟩ := step_of_pulse h hr hs.noFault (.inl h1)
    obtain ⟨-, -, -, hrun⟩ := dataLineWriters s t h
    obtain ⟨hpay, -⟩ := hrun hr hs.noFault
    rw [hbit, hbyte]
    exact hpay h1
  · obtain ⟨hr, h2⟩ := hdctl ht
    obtain ⟨-, -, hbit, hbyte⟩ := step_of_pulse h hr hs.noFault (.inr (.inl h2))
    rw [hbit, hbyte, step_dataQ_of_not_writer h hr hs.noFault (by rw [h2]; decide) (by rw [h2]; decide)
      (by rw [h2]; decide)]
    exact hs.payloadHeld (.inl h2)

/-- R39 after a step: `S_DCTL` puts the control bit on DATA. -/
theorem step_controlHeld (hs : s.Inv) (h : step s = .next t) (ht : t.fsm = fsmSCfall) :
    t.dataQ = controlBit t.cwQ t.bytePos t.bitPos := by
  obtain ⟨-, -, hcfall, -⟩ := step_fsm_from hs h
  obtain ⟨hr, h3⟩ := hcfall ht
  obtain ⟨hcw, hbyte, hbit, -⟩ := step_of_pulse h hr hs.noFault (.inr (.inr h3))
  obtain ⟨-, -, -, hrun⟩ := dataLineWriters s t h
  obtain ⟨-, hctl, -⟩ := hrun hr hs.noFault
  rw [hcw, hbyte, hbit]
  exact hctl h3

theorem lastControlBit_of_empty (hlen : s.lenQ = 0) : s.lastControlBit = false := if_neg (by omega)

/-- The last control bit is that of the last byte's bit position 7 (R72). -/
theorem lastControlBit_of_last {k : Nat} (hlen : s.lenQ = k + 1) : s.lastControlBit = controlBit s.cwQ k 7#3 := by
  rw [State.lastControlBit, if_pos (by omega), hlen, Nat.add_sub_cancel]
  rfl

/-- The closing writes begin after the last pulse, whose position is the last byte's last bit (R100, R105). -/
theorem step_last_pulse (h : step s = .next t) (hr : s.port.rst = false) (hf : s.faultQ = false)
    (h4 : s.fsm = fsmSCfall) (hlt : s.bytePos < s.lenQ) (ht : t.fsm = fsmSFclk) :
    s.lenQ = s.bytePos + 1 ∧ s.bitPos = 7#3 := by
  obtain ⟨-, hrun⟩ := nextStateTable s t h
  obtain ⟨-, -, -, -, -, hbit, hbyte, -⟩ := hrun hr hf
  have hlast : s.bitPos.toNat = 7 := by
    by_contra hne
    obtain ⟨hfsm, -⟩ := hbit h4 (by omega)
    exact absurd (hfsm.symm.trans ht) (by decide)
  have hend : ¬ s.bytePos + 1 < s.lenQ := fun hk => by
    obtain ⟨hfsm, -⟩ := hbyte h4 hlast hk
    exact absurd (hfsm.symm.trans ht) (by decide)
  exact ⟨by omega, BitVec.eq_of_toNat_eq hlast⟩

/-- An acceptance that goes straight to the closing writes has no byte position (R105). -/
theorem lenQ_of_step_idle (h : step s = .next t) (hr : s.port.rst = false) (h0 : s.fsm = fsmIdle)
    (ht : t.fsm = fsmSFclk) : t.lenQ = 0 := by
  have hacc : s.accepts = true := by
    by_contra hacc
    obtain ⟨-, hidle⟩ := step_of_not_accepts h hr (Bool.not_eq_true _ ▸ hacc)
    exact absurd ((hidle h0).symm.trans ht) (by decide)
  by_contra hlen
  have hstart := (atStart_of_step_accepts h hacc).fsm
  rw [ht, if_pos (Nat.pos_of_ne_zero hlen)] at hstart
  exact absurd hstart (by decide)

/-- R102 after a step: the last falling edge leaves the last control bit on DATA, an acceptance without a byte leaves
the 0 of `IDLE`, and the closing CLOCK write leaves either. -/
theorem step_lastHeld (hs : s.Inv) (h : step s = .next t) (ht : t.fsm = fsmSFclk ∨ t.fsm = fsmSFdata) :
    t.dataQ = t.lastControlBit := by
  obtain ⟨-, -, -, hfclk, hfdata⟩ := step_fsm_from hs h
  have hheld (hr : s.port.rst = false) := step_dataQ_of_not_writer h hr hs.noFault
  have hlatched (hr : s.port.rst = false) (hbusy : s.fsm ≠ fsmIdle) :=
    (step_of_not_accepts h hr (accepts_eq_false_of_busy hbusy)).1
  rcases ht with ht | ht
  · obtain ⟨hr, h0 | h4⟩ := hfclk ht
    · rw [hheld hr (by rw [h0]; decide) (by rw [h0]; decide) (by rw [h0]; decide),
        lastControlBit_of_empty (lenQ_of_step_idle h hr h0 ht)]
      exact hs.idleData h0
    · obtain ⟨hcw, hlen, -⟩ := hlatched hr (by rw [h4]; decide)
      obtain ⟨hend, hbit⟩ := step_last_pulse h hr hs.noFault h4 (hs.inRange (.inr (.inr (.inr h4)))) ht
      rw [hheld hr (by rw [h4]; decide) (by rw [h4]; decide) (by rw [h4]; decide),
        lastControlBit_of_last (hlen.trans hend), hcw, ← hbit]
      exact hs.controlHeld h4
  · obtain ⟨hr, h5⟩ := hfdata ht
    obtain ⟨hcw, hlen, -⟩ := hlatched hr (by rw [h5]; decide)
    rw [hheld hr (by rw [h5]; decide) (by rw [h5]; decide) (by rw [h5]; decide), State.lastControlBit, hcw, hlen]
    exact hs.lastHeld (.inl h5)

/-! ### What the command bound, after a step -/

/-- R26 after a step: a `TRANSMIT` binds its own bytes, a `DISABLE` does not read the buffer. -/
theorem step_bound (hs : s.Inv) (h : step s = .next t) (hbusy : t.fsm ≠ fsmIdle) (hbuf : t.srcQ = .buffer) :
    ∃ bytes : List Byte, t.pb = some (Memory.bind bytes) ∧ bytes.length = t.lenQ := by
  obtain ⟨b, rfl⟩ | ⟨b, rfl⟩ | ⟨b, cw, data, -, rfl⟩ | ⟨⟨-, hlen, hsrc, hpb⟩, hidle⟩ := step_operands h
  · simp at hbusy
  · simp at hbuf
  · exact ⟨data, by simp, by simp⟩
  · rw [hlen, hpb]
    exact hs.bound (mt hidle hbusy) (hsrc ▸ hbuf)

/-- R86 after a step: an accepted payload fits. -/
theorem step_fits (hs : s.Inv) (h : step s = .next t) (hbuf : t.srcQ = .buffer) :
    t.cfg.lengthFits t.lenQ = true := by
  rw [stepKeepsTheConfiguration s t h]
  obtain ⟨b, rfl⟩ | ⟨b, rfl⟩ | ⟨b, cw, data, hfits, rfl⟩ | ⟨⟨-, hlen, hsrc, -⟩, -⟩ := step_operands h
  · simpa using lengthFits_zero s.cfg
  · simp at hbuf
  · simpa using hfits
  · rw [hlen]
    exact hs.fits (hsrc ▸ hbuf)

/-- R23 and R24 after a step: an accepted `DISABLE` latches its constants. -/
theorem step_virtualLatched (hs : s.Inv) (h : step s = .next t) (hvirt : t.srcQ = .virtual) :
    t.cwQ = cwDisable ∧ t.lenQ = disableLength t.cfg.disableMode := by
  rw [stepKeepsTheConfiguration s t h]
  obtain ⟨b, rfl⟩ | ⟨b, rfl⟩ | ⟨b, cw, data, -, rfl⟩ | ⟨⟨hcw, hlen, hsrc, -⟩, -⟩ := step_operands h
  · simp at hvirt
  · simp
  · simp at hvirt
  · rw [hcw, hlen]
    exact hs.virtualLatched (hsrc ▸ hvirt)

/-! ### The invariant -/

/-- Settles O36: clause by clause, from where a transmission stands, what the line writes leave on DATA and what the
acceptance latched. -/
theorem stepKeepsTheInvariant : Obligations.StepKeepsTheInvariant := by
  intro s t hs h
  have hsafe := hs.safe.safeOutcome_step.safe h
  have hstage := step_stage hs h
  obtain ⟨-, hidle⟩ := idleLinesAreLow
  exact {
    noFault := hsafe.noFault
    notReserved := hsafe.notReserved
    clockHigh := step_clockHigh hs h
    idleData := fun ht => (hidle s t hs h ht).2
    payloadHeld := step_payloadHeld hs h
    controlHeld := step_controlHeld hs h
    lastHeld := step_lastHeld hs h
    inRange := hstage.inRange
    ended := hstage.atEnd
    bound := step_bound hs h
    fits := step_fits hs h
    virtualLatched := step_virtualLatched hs h }

/-- Settles O35: the reset state is idle, both lines 0, with no payload bound and no length. -/
theorem resetStateMeetsTheInvariant : Obligations.ResetStateMeetsTheInvariant := by
  refine ⟨?_, reset_memory_wf, by decide⟩
  exact {
    noFault := rfl
    notReserved := by decide
    clockHigh := by decide
    idleData := fun _ => rfl
    payloadHeld := fun h => absurd h (by decide)
    controlHeld := fun h => absurd h (by decide)
    lastHeld := fun h => absurd h (by decide)
    inRange := fun h => absurd h (by decide)
    ended := fun _ => ⟨rfl, rfl⟩
    bound := fun h => absurd rfl h
    fits := fun _ => rfl
    virtualLatched := fun h => absurd h (by decide) }

/-! ### The position -/

/-- Without reset and acceptance `BYTE_POS` moves only where `BIT_POS` wraps, at the end of a byte (R100). -/
theorem step_bytePos (h : step s = .next t) (hr : s.port.rst = false) (hacc : s.accepts = false) :
    t.bytePos = s.bytePos ∨ (t.bytePos = s.bytePos + 1 ∧ s.bitPos = 7#3 ∧ t.bitPos = 0#3) := by
  obtain ⟨-, u, rfl, ⟨hr', -⟩ | ⟨-, -, rfl⟩ | ⟨-, hf, hrun⟩⟩ := step_cases h
  · simp [hr] at hr'
  · simp
  · rcases hrun with ⟨-, -, rfl⟩ | ⟨h0, hv, -⟩ | ⟨h0, hv, -⟩ | ⟨-, b, -, rfl⟩ | ⟨-, rfl⟩ |
      ⟨-, rfl⟩ | ⟨-, rfl⟩ | ⟨-, rfl⟩ | ⟨-, rfl⟩ | ⟨-, rfl⟩
    · simp
    · simp [accepts_iff.mpr ⟨hv, h0, hf, hr⟩] at hacc
    · simp [accepts_iff.mpr ⟨hv, h0, hf, hr⟩] at hacc
    · simp
    · simp
    · simp
    · by_cases hp : s.bitPos.toNat < 7
      · rw [advance_of_lt (s := s.lineWrite .clock false) hp]
        simp
      · have hlast : s.bitPos.toNat = 7 := by omega
        rw [advance_of_last (s := s.lineWrite .clock false) hlast]
        exact .inr ⟨by simp, BitVec.eq_of_toNat_eq hlast, by simp⟩
    · simp
    · simp
    · simp

/-- Settles O40: the range by where a transmission stands after the step, the movement by `S_CFALL` alone; the index
takes the byte position modulo 4. -/
theorem positionStaysInRange : Obligations.PositionStaysInRange := by
  refine ⟨fun s t hs h => ?_, fun w k p => ?_⟩
  · have hstage := step_stage hs h
    refine ⟨?_, hstage.inRange, fun hcode => (hstage.atEnd hcode).1, step_bytePos h⟩
    by_cases hcode : pulsing t.fsm
    · exact (hstage.inRange hcode).le
    · exact (hstage.atEnd hcode).1.le
  · have hindex : controlIndex (k + 4) p = controlIndex k p := Nat.add_comm k 4 ▸ controlIndex_four_mul_add 1 k p
    rw [controlBit, hindex, controlBit]

/-! ### The steps of a transmission -/

/-- Settles O59: the step that accepts starts a transmission of the length it latched, and its run is known. -/
theorem transmissionCycleCount : Obligations.TransmissionCycleCount := by
  intro s u hacc h hr
  obtain ⟨hp, -⟩ := step_cases h
  obtain ⟨-, -, hf, -⟩ := accepts_iff.mp hacc
  have hrun : (∀ k, 0 < k → k < 1 + (32 * u.lenQ + 2) →
        ∃ v, Host.Core.run Sys2Proof.core k s = .next v ∧ v.busy = true ∧ v.faultQ = false) ∧
      ∃ v, Host.Core.run Sys2Proof.core (1 + (32 * u.lenQ + 2)) s = .next v ∧ v.fsm = fsmIdle := by
    rcases step_of_accepts h hacc with ⟨-, rfl⟩ | ⟨-, -, rfl⟩
    · obtain ⟨hbusy, v, hv, -, hidle, -⟩ := run_of_accept h hp hf (atStart_acceptDisable s)
        (holdsPayload_of_virtual rfl) (hostTurn_lenQ _ _).symm rfl rfl hr
      exact ⟨hbusy, v, hv, hidle⟩
    · obtain ⟨hbusy, v, hv, -, hidle, -⟩ := run_of_accept h hp hf (atStart_acceptTransmit _ _ s)
        (holdsPayload_of_bound rfl rfl rfl) (hostTurn_lenQ _ _).symm rfl rfl hr
      exact ⟨hbusy, v, hv, hidle⟩
  obtain ⟨hbusy, v, hv, hidle⟩ := hrun
  refine ⟨fun k hk hlt => ?_, ⟨v, hv, decide_eq_false (not_not.mpr hidle)⟩, rfl, ?_⟩
  · obtain ⟨w, hw, hwb, -⟩ := hbusy k hk hlt
    exact ⟨w, hw, hwb⟩
  · rw [transmissionCycles, transmissionSteps, show 1 + (32 * u.lenQ + 2) = 32 * u.lenQ + 3 by omega]

end Sys2Proof.Machine

/-! The two host commands and `IDLE` at the port, and what an instruction leaves unchanged (40_commands.md R84, R85,
R87, R88; 41_sequencer.md R96 to R103). -/

namespace Sys2Proof.Machine

variable {s t : State} {cw : ControlWord} {data : List Byte}

/-! ### A port that is ready -/

/-- Settles O17: a ready port and a payload that fits select the branch that accepts; the bound list is read back. -/
theorem transmitAcceptance : Obligations.TransmitAcceptance := by
  intro cw data s h0 hf hr hfits
  have hready : s.cmdReady = true := cmdReady_of_idle h0 hf hr
  refine ⟨?_, read_bind data⟩
  rw [exec, execTransmit, presentTransmit, if_pos hready, if_pos hfits]
  rfl

/-- Settles O18: a ready port accepts, and the mode gives the length. -/
theorem disableAcceptance : Obligations.DisableAcceptance := by
  intro s h0 hf hr
  have hready : s.cmdReady = true := cmdReady_of_idle h0 hf hr
  have hexec : exec .disable s = .next (acceptDisable s) := if_pos hready
  refine ⟨fun hmode => ?_, fun hmode => ?_⟩ <;>
    · rw [hexec, acceptDisable, hmode]
      rfl

/-! ### `IDLE` -/

theorem exec_idle_of_no_command (hv : s.port.cmdValid = false) : exec .idle s = .next s := by
  simp [exec, execIdle, hv]

/-- `IDLE` presents the `TRANSMIT` on the port (R96). -/
theorem exec_idle_of_transmit (hv : s.port.cmdValid = true) (ho : cmdOp s.port.cmdWord = false) :
    exec .idle s = exec (.transmit (cmdControlWord s.port.cmdWord) s.port.cmdData) s := by
  simp [exec, execIdle, execTransmit, hv, ho]

/-- `IDLE` presents the `DISABLE` on the port (R96). -/
theorem exec_idle_of_disable (hv : s.port.cmdValid = true) (ho : cmdOp s.port.cmdWord = true) :
    exec .idle s = exec .disable s := by
  simp [exec, execIdle, execDisable, hv, ho]

/-- `IDLE` is nothing, or one of the two commands (R96). -/
theorem exec_idle_cases (s : State) :
    (s.port.cmdValid = false ∧ exec .idle s = .next s) ∨
    (s.port.cmdValid = true ∧ (exec .idle s = exec .disable s ∨
      exec .idle s = exec (.transmit (cmdControlWord s.port.cmdWord) s.port.cmdData) s)) := by
  by_cases hv : s.port.cmdValid = true
  · by_cases ho : cmdOp s.port.cmdWord = true
    · exact .inr ⟨hv, .inl (exec_idle_of_disable hv ho)⟩
    · exact .inr ⟨hv, .inr (exec_idle_of_transmit hv (Bool.not_eq_true _ ▸ ho))⟩
  · have hv' := Bool.not_eq_true _ ▸ hv
    exact .inl ⟨hv', exec_idle_of_no_command hv'⟩

/-- At the start of a transmission the block is busy (R34). -/
theorem State.AtStart.busy (h : s.AtStart) : s.busy = true :=
  decide_eq_true (fsm_ne_idle (h.remainingSteps ▸ Nat.succ_pos _))

/-- Settles O19: `IDLE` is the presented command, and an acceptance starts a transmission. -/
theorem idleAcceptsThePresentedCommand : Obligations.IdleAcceptsThePresentedCommand := by
  intro s
  refine ⟨exec_idle_of_no_command, exec_idle_of_transmit, exec_idle_of_disable, fun h0 hf hr hv hcmd => ?_⟩
  have hready : s.cmdReady = true := cmdReady_of_idle h0 hf hr
  by_cases ho : cmdOp s.port.cmdWord = true
  · have hexec : exec .disable s = .next (acceptDisable s) := if_pos hready
    exact ⟨_, (exec_idle_of_disable hv ho).trans hexec, (atStart_acceptDisable s).busy, rfl, rfl⟩
  · have hfits : s.cfg.lengthFits s.port.cmdData.length = true := hcmd.resolve_left ho
    obtain ⟨hexec, -⟩ := transmitAcceptance (cmdControlWord s.port.cmdWord) s.port.cmdData s h0 hf hr hfits
    exact ⟨_, (exec_idle_of_transmit hv (Bool.not_eq_true _ ▸ ho)).trans hexec,
      (atStart_acceptTransmit _ _ s).busy, rfl, rfl⟩

/-! ### A port that is not ready -/

theorem exec_transmit_of_not_ready (hready : s.cmdReady = false) : exec (.transmit cw data) s = .next s := by
  simp [exec, execTransmit, presentTransmit, hready]

theorem exec_disable_of_not_ready (hready : s.cmdReady = false) : exec .disable s = .next s := by
  simp [exec, execDisable, presentDisable, hready]

theorem exec_idle_of_not_ready (hready : s.cmdReady = false) : exec .idle s = .next s := by
  rcases exec_idle_cases s with ⟨-, h⟩ | ⟨-, h | h⟩
  · exact h
  · exact h.trans (exec_disable_of_not_ready hready)
  · exact h.trans (exec_transmit_of_not_ready hready)

/-- Settles O20: each of the three finds the port not ready. -/
theorem heldCommandHasNoEffect : Obligations.HeldCommandHasNoEffect := by
  intro s cw data h
  have hready : s.cmdReady = false := cmdReady_eq_false.mpr h
  exact ⟨exec_transmit_of_not_ready hready, exec_disable_of_not_ready hready, exec_idle_of_not_ready hready⟩

/-- Settles O22: a port that is not ready is not read. -/
theorem busyBlockIgnoresTheCommandPort : Obligations.BusyBlockIgnoresTheCommandPort := by
  intro s t p hnot hp h
  exact step_withPort (cmdReady_eq_false.mpr hnot) h hp

/-! ### What a command leaves -/

/-- A command or `IDLE` is held or accepted. -/
theorem exec_command_next {i : Instr} (h : exec i s = .next t)
    (hi : i = .disable ∨ i = .idle ∨ ∃ cw data, i = .transmit cw data) :
    t = s ∨ t = acceptDisable s ∨ ∃ cw data, t = acceptTransmit cw data s := by
  have hdisable (h : exec .disable s = .next t) : t = s ∨ t = acceptDisable s := by
    rcases presentDisable_next h with ⟨-, ht⟩ | ⟨-, ht⟩
    · exact .inr ht
    · exact .inl ht
  have htransmit {cw data} (h : exec (.transmit cw data) s = .next t) : t = s ∨ t = acceptTransmit cw data s := by
    rcases presentTransmit_next h with ⟨-, -, ht⟩ | ⟨-, ht⟩
    · exact .inr ht
    · exact .inl ht
  rcases hi with rfl | rfl | ⟨cw, data, rfl⟩
  · exact (hdisable h).imp_right .inl
  · rcases exec_idle_cases s with ⟨-, hidle⟩ | ⟨-, hidle | hidle⟩
    · exact .inl (Host.Outcome.next.inj (h.symm.trans hidle))
    · exact (hdisable (hidle ▸ h)).imp_right .inl
    · exact (htransmit (hidle ▸ h)).imp_right fun ht => .inr ⟨_, _, ht⟩
  · exact (htransmit h).imp_right fun ht => .inr ⟨_, _, ht⟩

/-- A `DISABLE` leaves every byte of the payload space (log 12). -/
theorem byteAt_of_exec_disable (h : exec .disable s = .next t) (a : Nat) : t.byteAt a = s.byteAt a := by
  rcases presentDisable_next h with ⟨-, rfl⟩ | ⟨-, rfl⟩ <;> rfl

/-- An accepted `TRANSMIT` makes the payload space its own bytes, a held one leaves it. -/
theorem byteAt_of_exec_transmit (h : exec (.transmit cw data) s = .next t) :
    (s.cmdReady = true → ∀ a, t.byteAt a = data[a]?) ∧ (s.cmdReady = false → ∀ a, t.byteAt a = s.byteAt a) := by
  rcases presentTransmit_next h with ⟨hready, -, rfl⟩ | ⟨hready, rfl⟩
  · simp [hready, State.byteAt]
  · simp [hready]

/-- Settles O23: what is held changes nothing, and an acceptance writes none of these; the payload space by command. -/
theorem commandFrame : Obligations.CommandFrame := by
  intro i s t h hi
  have hframe : t.cfg = s.cfg ∧ t.clockQ = s.clockQ ∧ t.dataQ = s.dataQ ∧ t.faultQ = s.faultQ ∧ t.port = s.port ∧
      t.script = s.script ∧ t.freeIdx = s.freeIdx := by
    obtain rfl | rfl | ⟨cw, data, rfl⟩ := exec_command_next h hi <;> simp
  have hrest (hidle : i = .idle) (hv : s.port.cmdValid = false) : t = s := by
    rw [hidle, exec_idle_of_no_command hv] at h
    exact (Host.Outcome.next.inj h).symm
  obtain ⟨hcfg, hclock, hdata, hfault, hport, hscript, hfree⟩ := hframe
  refine ⟨hcfg, hclock, hdata, hfault, hport, hscript, hfree, ?_, ?_, hrest⟩
  · rintro (rfl | ⟨rfl, hcmd⟩) a
    · exact byteAt_of_exec_disable h a
    · by_cases hv : s.port.cmdValid = true
      · have ho : cmdOp s.port.cmdWord = true := hcmd.resolve_left (by simp [hv])
        exact byteAt_of_exec_disable (exec_idle_of_disable hv ho ▸ h) a
      · rw [hrest rfl (Bool.not_eq_true _ ▸ hv)]
  · rintro cw data rfl
    exact byteAt_of_exec_transmit h

/-! ### What a micro-step leaves -/

/-- Settles O31: each micro-step is a line write and a jump, `S_CFALL` a line write and the advance of the position,
and the reserved code the flag alone. -/
theorem microStepFrame : Obligations.MicroStepFrame := by
  intro i s t h hi
  simp only [List.mem_cons, List.not_mem_nil, or_false] at hi
  rcases hi with rfl | rfl | rfl | rfl | rfl | rfl | rfl
  · cases hb : payloadByte s with
    | error f => rw [exec, execSDpay, hb] at h; cases h
    | ok b => rw [exec_sDpay hb] at h; cases h; simp [State.byteAt]
  all_goals
    cases h
    simp [State.byteAt]

/-- Settles O30: the micro-step sets the flag; a faulted block is not ready and has the host's turn alone, until the
reset transition clears the flag. -/
theorem reservedCodeFaultsUntilReset : Obligations.ReservedCodeFaultsUntilReset := by
  refine fun s => ⟨rfl, rfl, fun hf => ⟨cmdReady_of_faultQ hf, by simp [State.final, hf], fun t hr h => ?_,
    fun t hr h => ?_⟩⟩
  · obtain ⟨hflag, -, hstuck⟩ := faultFlagIsSticky s t h
    exact ⟨(hstuck hf hr).2, hflag.mpr ⟨hr, .inl hf⟩⟩
  · obtain ⟨hp, -⟩ := step_cases h
    rw [step_reset hp hr] at h
    cases h
    simp [fsmIdle]

end Sys2Proof.Machine

/-! One step: what it runs, in which order, and where it is refused or faults (41_sequencer.md R94, R95, R113;
60_exceptions.md R122). -/

namespace Sys2Proof.Machine

variable {s t : State} {cw : ControlWord} {data : List Byte} {code : FsmCode}

/-! ### What is selected -/

/-- A state code selects its own micro-step, and no command. -/
theorem encode_decodeFsm (code : FsmCode) : encode (decodeFsm code) = .fsm code := encode_decode_fsm code

theorem decodeFsm_injective {code' : FsmCode} (h : decodeFsm code = decodeFsm code') : code = code' :=
  Encoding.fsm.inj ((encode_decodeFsm code).symm.trans ((congrArg encode h).trans (encode_decodeFsm code')))

/-- A `TRANSMIT` is selected only from the port (R84). -/
theorem of_selected_transmit (h : selected s = .transmit cw data) :
    (s.fsm = fsmIdle ∧ s.port.cmdValid = true) ∧ cmdOp s.port.cmdWord = false ∧ s.port.cmdData = data := by
  by_cases hcmd : s.fsm = fsmIdle ∧ s.port.cmdValid = true
  · rw [selected, if_pos hcmd] at h
    by_cases ho : cmdOp s.port.cmdWord = true
    · simp [decodeCommand, ho] at h
    · simp only [decodeCommand, ho] at h
      cases h
      exact ⟨hcmd, Bool.not_eq_true _ ▸ ho, rfl⟩
  · rw [selected, if_neg hcmd] at h
    have henc := encode_decodeFsm s.fsm
    rw [h] at henc
    cases henc

/-- A micro-step is selected only by its own state code, with no command to run in its place (R95). -/
theorem of_selected_decodeFsm (h : selected s = decodeFsm code) :
    s.fsm = code ∧ ¬ (s.fsm = fsmIdle ∧ s.port.cmdValid = true) := by
  by_cases hcmd : s.fsm = fsmIdle ∧ s.port.cmdValid = true
  · rw [selected, if_pos hcmd] at h
    have henc := encode_decodeFsm code
    rw [← h] at henc
    by_cases ho : cmdOp s.port.cmdWord = true <;> simp [decodeCommand, ho, encode] at henc
  · rw [selected, if_neg hcmd] at h
    exact ⟨decodeFsm_injective h, hcmd⟩

/-- Next levels that present no command are driven as they are. -/
theorem held_of_no_command (old : Port) {p : Port} (hv : p.cmdValid = false) : old.held p = p := by
  simp [Port.held, hv]

/-- Settles O9: a step's two parts, the selection by `IDLE` with a command, and the host's turn by its script. -/
theorem stepRunsTheSelectedInstruction : Obligations.StepRunsTheSelectedInstruction := by
  intro s hpins hr hf
  refine ⟨step_selected (pinsDistinct_iff.mpr hpins) hr hf, by simp [State.pending], fun h0 hv => if_pos ⟨h0, hv⟩,
    fun hno => if_neg ?_, fun u b => ⟨rfl, hostTurn_nil u b, fun p ps hs => ?_⟩, fun _ _ => rfl, fun _ _ => rfl⟩
  · rintro ⟨h0, hv⟩
    rcases hno with hbusy | hv'
    · exact hbusy h0
    · simp [hv] at hv'
  · rw [hostTurn_cons u b hs]
    refine ⟨?_, ?_⟩
    · rintro (rfl | hv)
      · rfl
      · rw [held_of_no_command _ hv, ite_self]
    · rintro rfl hv
      rw [Port.held, if_pos rfl, if_pos hv]

/-! ### The order of events -/

/-- Settles O12: reset, then a fault, then the micro-step of `S_FDATA`, whose port is not ready before it. -/
theorem priorityOfSimultaneousEvents : Obligations.PriorityOfSimultaneousEvents := by
  intro s hpins
  have hp : s.cfg.pinsDistinct = true := pinsDistinct_iff.mpr hpins
  refine ⟨step_reset hp, step_faulted hp, fun hr hf h6 => ?_⟩
  have hbusy : s.fsm ≠ fsmIdle := by rw [h6]; decide
  have hsel : selected s = .sFdata := (selected_busy hbusy).trans (h6 ▸ decodeFsm_sFdata)
  refine ⟨accepts_eq_false_of_busy hbusy, ((s.lineWrite .data false).goto fsmIdle).hostTurn s.pending, ?_⟩
  refine ⟨by rw [step_selected hp hr hf, hsel]; rfl, by simp [fsmIdle], by simp, fun hr' => ?_⟩
  exact cmdReady_of_idle (by simp) (by simpa using hf) hr'

/-- The block has no step in a fault and in `IDLE` without a command, reset aside (R94). -/
theorem hasStep_eq_false :
    s.hasStep = false ↔
      s.port.rst = false ∧ (s.faultQ = true ∨ (s.fsm = fsmIdle ∧ s.port.cmdValid = false)) := by
  cases hf : s.faultQ <;> simp [State.hasStep, hf]

/-- Settles O13: in each of the two kinds of state without a step the host's turn is all that happens. -/
theorem noStepLeavesTheBlock : Obligations.NoStepLeavesTheBlock := by
  intro s hpins
  have hp : s.cfg.pinsDistinct = true := pinsDistinct_iff.mpr hpins
  refine ⟨hasStep_eq_false, fun hno => ?_⟩
  obtain ⟨hr, hrest⟩ := hasStep_eq_false.mp hno
  have hstep : step s = .next (s.hostTurn s.pending) := by
    by_cases hf : s.faultQ = true
    · exact step_faulted hp hr hf
    · obtain ⟨h0, hv⟩ := hrest.resolve_left hf
      exact step_idle_without_command hp hr (Bool.not_eq_true _ ▸ hf) h0 hv
  exact ⟨_, hstep, sameBlock_hostTurn_self s _, rfl⟩

/-- A port is ready in `IDLE` with no fault and no reset (R83). -/
theorem cmdReady_iff : s.cmdReady = true ↔ s.fsm = fsmIdle ∧ s.faultQ = false ∧ s.port.rst = false := by
  simp [State.cmdReady, and_assoc]

/-- Settles O60: the outputs by their definitions; a final state has no step, and no script to drive. -/
theorem statusOutputsAndFinalStates : Obligations.StatusOutputsAndFinalStates := by
  intro s
  refine ⟨decide_eq_true_iff, rfl, cmdReady_iff, by simp [State.accepts], ?_, fun hfinal hscript hpins => ?_⟩
  · rintro (hf | hbusy | hacc)
    · simp [State.final, hf]
    · have hne : s.fsm ≠ fsmIdle := of_decide_eq_true hbusy
      simp [State.final, hne]
    · simp [State.final, (accepts_iff.mp hacc).1]
  · obtain ⟨⟨⟨h0, hf⟩, hr⟩, hv⟩ : ((s.fsm = fsmIdle ∧ s.faultQ = false) ∧ s.port.rst = false) ∧
        s.port.cmdValid = false := by simpa [State.final] using hfinal
    rw [step_idle_without_command (pinsDistinct_iff.mpr hpins) hr hf h0 hv, hostTurn_nil s _ hscript]

/-! ### A placed instruction (log 14) -/

theorem selected_placeEncoding (s : State) (e : Encoding) : selected (placeEncoding s e) = decode e := by
  cases e with
  | command word data => exact if_pos ⟨rfl, rfl⟩
  | fsm code => exact if_neg (by simp [placeEncoding])

/-- A placed instruction finds no reset and no fault. -/
theorem step_placeEncoding (hp : s.cfg.pinsDistinct = true) (e : Encoding) :
    step (placeEncoding s e) =
      afterStep (placeEncoding s e).pending (exec (decode e) (placeEncoding s e)) := by
  rw [← selected_placeEncoding s e]
  cases e <;> exact step_selected hp rfl rfl

/-- A command of no bytes always answers a next state. -/
theorem exec_decodeCommand_answers (word : CmdWord) (s : State) : ∃ t, exec (decodeCommand word []) s = .next t := by
  by_cases ho : cmdOp word = true
  · rw [decodeCommand, if_pos ho]
    exact presentDisable_answers s
  · rw [decodeCommand, if_neg ho]
    by_cases hready : s.cmdReady = true
    · refine ⟨acceptTransmit (cmdControlWord word) [] s, ?_⟩
      simp [exec, execTransmit, presentTransmit, hready, lengthFits_zero]
    · exact ⟨s, exec_transmit_of_not_ready (Bool.not_eq_true _ ▸ hready)⟩

/-- A micro-step answers a next state where the payload byte can be read and no command is presented. -/
theorem exec_decodeFsm_answers {b : Byte} (hb : payloadByte s = .ok b) (hv : s.port.cmdValid = false)
    (code : FsmCode) : ∃ t, exec (decodeFsm code) s = .next t := by
  rcases fsm_cases code with rfl | rfl | rfl | rfl | rfl | rfl | rfl | rfl
  · exact ⟨s, exec_idle_of_no_command hv⟩
  · exact ⟨_, exec_sDpay hb⟩
  all_goals exact ⟨_, rfl⟩

/-- A number of a command word has no payload (log 14). -/
theorem data_of_encodingOfNat {nbits w : Nat} {word : CmdWord} (h : encodingOfNat nbits w = .ok (.command word data)) :
    data = [] := by
  unfold encodingOfNat at h
  split at h
  · split at h <;> cases h
  · split at h
    · split at h <;> cases h
      rfl
    · cases h

/-- Settles O10: placing sets what selects the instruction, and makes the payload byte readable. -/
theorem placedInstructionRunsNext : Obligations.PlacedInstructionRunsNext := by
  intro s nbits w i hpins h
  have hp : s.cfg.pinsDistinct = true := pinsDistinct_iff.mpr hpins
  unfold decodeTableWord at h
  unfold State.withFetchWord
  cases he : encodingOfNat nbits w with
  | error err => rw [he] at h; cases h
  | ok e =>
    rw [he] at h
    cases h
    have hstep := step_placeEncoding hp e
    refine ⟨hstep, ?_⟩
    have hanswers : ∃ u, exec (decode e) (placeEncoding s e) = .next u := by
      cases e with
      | command word data =>
        obtain rfl := data_of_encodingOfNat he
        exact exec_decodeCommand_answers word _
      | fsm code =>
        obtain ⟨b, hb⟩ := payloadByte_readableSource s
        exact exec_decodeFsm_answers (s := placeEncoding s (.fsm code)) hb rfl code
    obtain ⟨u, hu⟩ := hanswers
    exact ⟨_, hstep.trans (by rw [hu, afterStep_next])⟩

/-! ### Refusals and faults -/

/-- The refusals of an instruction: a `TRANSMIT` that a ready port accepts and whose payload does not fit, by itself or
presented in `IDLE` (R86). -/
theorem exec_refused {i : Instr} {r : Refusal} (h : exec i s = .refused r) :
    r = .lengthTooLarge ∧
      ((i = .idle ∧ s.port.cmdValid = true) ∨
       ∃ cw data, i = .transmit cw data ∧ s.cmdReady = true ∧ s.cfg.lengthFits data.length = false) := by
  have hdisable : exec .disable s ≠ .refused r := by
    obtain ⟨t, ht⟩ := presentDisable_answers s
    simp [exec, execDisable, ht]
  cases i with
  | transmit cw data =>
    obtain ⟨hr, hrest⟩ := presentTransmit_refused h
    exact ⟨hr, .inr ⟨cw, data, rfl, hrest⟩⟩
  | disable => exact absurd h hdisable
  | idle =>
    rcases exec_idle_cases s with ⟨-, hidle⟩ | ⟨hv, hidle | hidle⟩
    · cases hidle.symm.trans h
    · exact absurd (hidle ▸ h) hdisable
    · exact ⟨(presentTransmit_refused (hidle ▸ h)).1, .inl ⟨rfl, hv⟩⟩
  | sDpay => rw [exec, execSDpay] at h; split at h <;> cases h
  | sCrise | sDctl | sCfall | sFclk | sFdata | reservedFsm => cases h

/-- An instruction faults only in the payload read of `S_DPAY` (R44; log 13). -/
theorem exec_fault {i : Instr} {f : Fault} : exec i s = .fault f ↔ i = .sDpay ∧ payloadByte s = .error f := by
  have hdisable : exec .disable s ≠ .fault f := by
    obtain ⟨t, ht⟩ := presentDisable_answers s
    simp [exec, execDisable, ht]
  cases i with
  | transmit cw data => exact iff_of_false presentTransmit_no_fault (by simp)
  | disable => exact iff_of_false hdisable (by simp)
  | idle =>
    refine iff_of_false (fun h => ?_) (by simp)
    rcases exec_idle_cases s with ⟨-, hidle⟩ | ⟨-, hidle | hidle⟩
    · cases hidle.symm.trans h
    · exact hdisable (hidle ▸ h)
    · exact presentTransmit_no_fault (hidle ▸ h)
  | sDpay => rw [exec, execSDpay]; cases payloadByte s <;> simp
  | sCrise | sDctl | sCfall | sFclk | sFdata | reservedFsm => exact iff_of_false (fun h => by cases h) (by simp)

/-- A step that answers no next state is the refused configuration or the stop of the selected instruction. -/
theorem step_stop (h : ∀ t, step s ≠ .next t) :
    (s.cfg.pinsDistinct = false ∧ step s = .refused .samePin) ∨
    (s.port.rst = false ∧ s.faultQ = false ∧ step s = afterStep s.pending (exec (selected s) s)) := by
  by_cases hp : s.cfg.pinsDistinct = true
  swap
  · have hp' := Bool.not_eq_true _ ▸ hp
    exact .inl ⟨hp', step_samePin hp'⟩
  by_cases hr : s.port.rst = true
  · exact absurd (step_reset hp hr) (h _)
  have hr' := Bool.not_eq_true _ ▸ hr
  by_cases hf : s.faultQ = true
  · exact absurd (step_faulted hp hr' hf) (h _)
  have hf' := Bool.not_eq_true _ ▸ hf
  exact .inr ⟨hr', hf', step_selected hp hr' hf'⟩

/-- Settles O16: the fault of a step is that of its instruction, and that one is the payload read of `S_DPAY`. -/
theorem faultOnlyOnUnreadablePayload : Obligations.FaultOnlyOnUnreadablePayload := by
  have hexec (i : Instr) (s : State) (f : Fault) := (exec_fault (i := i) (s := s) (f := f)).trans
    (and_congr_right fun _ => payloadByte_error)
  refine ⟨fun s f h => ?_, hexec⟩
  rcases step_stop (s := s) (by simp [h]) with ⟨-, hstop⟩ | ⟨-, -, hstop⟩
  · cases h.symm.trans hstop
  · obtain ⟨hsel, hsrc, hwhy⟩ := (hexec _ s f).mp (afterStep_eq_fault.mp (hstop.symm.trans h))
    obtain ⟨h1, -⟩ := of_selected_decodeFsm (hsel.trans decodeFsm_sDpay.symm)
    refine ⟨h1, hsrc, ?_⟩
    rcases hwhy with ⟨-, hpb⟩ | ⟨-, -, hread⟩
    · exact .inr (by simp [State.byteAt, hpb])
    · exact hread

/-- Settles O14: one pin refuses every step; beyond that a step's refusal is that of its instruction, a `TRANSMIT` from
the port. -/
theorem refusalsAtTheBoundary : Obligations.RefusalsAtTheBoundary := by
  refine ⟨fun s hpins => step_samePin (by simp [Config.pinsDistinct, hpins]), fun s cw data b h0 hf hr hb hlen => ?_,
    fun s r h => ?_, fun i s r h => ?_⟩
  · have hready : s.cmdReady = true := cmdReady_of_idle h0 hf hr
    have hfits : s.cfg.lengthFits data.length = false := lengthFits_eq_false.mpr ⟨b, hb, hlen⟩
    simp [exec, execTransmit, presentTransmit, hready, hfits]
  · rcases step_stop (s := s) (by simp [h]) with ⟨hp, hstop⟩ | ⟨hr, hf, hstop⟩
    · cases h.symm.trans hstop
      exact .inl ⟨rfl, by simpa [Config.pinsDistinct] using hp⟩
    · obtain ⟨rfl, ⟨hsel, hv⟩ | ⟨cw, data, hsel, -, hfits⟩⟩ :=
        exec_refused (afterStep_eq_refused.mp (hstop.symm.trans h))
      · obtain ⟨h0, hno⟩ := of_selected_decodeFsm (hsel.trans decodeFsm_idle.symm)
        exact absurd ⟨h0, hv⟩ hno
      · obtain ⟨⟨h0, hv⟩, ho, rfl⟩ := of_selected_transmit hsel
        exact .inr ⟨rfl, accepts_iff.mpr ⟨hv, h0, hf, hr⟩, ho, lengthFits_eq_false.mp hfits⟩
  · obtain ⟨hr, ⟨hi, -⟩ | ⟨cw, data, rfl, -, hfits⟩⟩ := exec_refused h
    · exact ⟨hr, .inl hi⟩
    · exact ⟨hr, .inr hfits⟩

end Sys2Proof.Machine
